-- ==== Sys2Proof/Word.lean ====
section
/-! DEFINITION. The machine's word (00_scope.md R7) and its text form's type. -/

namespace Sys2Proof

/-- "16-bit fixed-width value, the machine's only data unit" (R7): bit 15 is the most significant. Addresses are
words too (R25, R30). -/
abbrev Word := BitVec 16

/-- A text form: characters, most significant first (R7). -/
abbrev Text := List Char

end Sys2Proof
end

