-- ==== Sys2Proof/Syntax.lean ====
section
/-! DEFINITION. The instruction set as syntax: one constructor of `Instr` per row of spec/opcode_table.json, and
the operands they carry (30_encoding.md R62 to R71). -/

namespace Sys2Proof

/-- The eight registers, each with a fixed role (10_state.md R20, R21). -/
inductive Reg where
  /-- instruction pointer (pc) -/
  | r0
  /-- current instruction (ir) -/
  | r1
  /-- ALU operand X -/
  | r2
  /-- ALU operand Y -/
  | r3
  /-- ALU result -/
  | r4
  /-- memory address for LOAD and STORE -/
  | r5
  /-- destination of a memory load -/
  | r6
  /-- source of a memory store, target of the immediate instructions -/
  | r7
deriving DecidableEq, Repr

/-- The six control inputs of the ALU, in the order of its signature (44_alu.md R130; 30_encoding.md R68). -/
structure AluControl where
  zeroX : Bool
  negateX : Bool
  zeroY : Bool
  negateY : Bool
  opSelect : Bool
  negateOut : Bool
deriving DecidableEq, Repr

/-- The flag pair on which an ALU-OP jumps (30_encoding.md R69): `onZero` is compared with isZero, `onNegative`
with isNegative. -/
structure JumpCond where
  onZero : Bool
  onNegative : Bool
deriving DecidableEq, Repr

/-- The seven instruction classes of the decoder table (30_encoding.md R62). -/
inductive InstrClass where
  | store
  | load
  | setLowBits
  | setTopBits
  | copy
  | aluOp
  | pass
deriving DecidableEq, Repr

/-- The core's instructions. Wildcard bits reach no action (R71), so no constructor carries them. -/
inductive Instr where
  /-- STORE (R100) -/
  | store
  /-- LOAD (R101) -/
  | load
  /-- SETLOWBITS imm8 (R110) -/
  | setLowBits (imm : BitVec 8)
  /-- SETTOPBITS imm8 (R111) -/
  | setTopBits (imm : BitVec 8)
  /-- COPY target source (R120) -/
  | copy (target source : Reg)
  /-- ALU k IF c JUMP j (R140); `jump = .r0` never jumps -/
  | alu (cond : JumpCond) (control : AluControl) (jump : Reg)
  /-- PASS (R150) -/
  | pass
deriving DecidableEq, Repr

/-- The class an instruction belongs to. -/
def Instr.cls : Instr → InstrClass
  | .store => .store
  | .load => .load
  | .setLowBits _ => .setLowBits
  | .setTopBits _ => .setTopBits
  | .copy _ _ => .copy
  | .alu _ _ _ => .aluOp
  | .pass => .pass

end Sys2Proof
end

