-- ==== Sys2Proof/WellFormed.lean ====
section
/-! DEFINITION. Which instructions are well formed, and which words are canonical encodings.

The operand types carry every bound the spec sets: a register code is one of eight (30_encoding.md R67), an
immediate has eight bits (R70), the control and condition fields are single bits (R68, R69). So every term of
`Instr` is well formed, and what can be ill formed is a WORD: one whose wildcard bits are not 0 is no word that
the encoder writes (R71, R85), although the decoder accepts it. -/

namespace Sys2Proof

/-- Every instruction is well formed: its types leave no operand out of range (R67, R70, R73). -/
def Instr.wellFormed : Instr → Bool
  | .store => true
  | .load => true
  | .setLowBits _ => true
  | .setTopBits _ => true
  | .copy _ _ => true
  | .alu _ _ _ => true
  | .pass => true

/-- The positions of a class that are wildcards (R63 to R66). For PASS bit 0 of the suffix counts as one: both of
its suffixes decode alike (R62). -/
def InstrClass.wildcards : InstrClass → Word
  | .store => 0xFFF8
  | .load => 0xFFF8
  | .setLowBits => 0xF800
  | .setTopBits => 0xF800
  | .copy => 0xFE00
  | .aluOp => 0xC000
  | .pass => 0xFFF9

/-- `w` holds 0 in every wildcard position of the class `c` (R71, R85). -/
def InstrClass.canonical (c : InstrClass) (w : Word) : Bool :=
  (w &&& c.wildcards) == 0

end Sys2Proof
end

