-- ==== Sys2Proof/Decode.lean ====
section
/-! DEFINITION. The decoder and the encoder (30_encoding.md), and the bit-field helpers they use. -/

namespace Sys2Proof

/-- The text form of `n` bits, most significant first (00_scope.md R7). -/
def textOf {n : Nat} (v : BitVec n) : Text :=
  (List.range n).reverse.map fun k => if v.getLsbD k then '1' else '0'

/-- The register that a 3-bit code selects: "a fixed bijection 000..111 → R0..R7" (R67). -/
def regOfCode (c : BitVec 3) : Reg :=
  match c.toNat with
  | 0 => .r0
  | 1 => .r1
  | 2 => .r2
  | 3 => .r3
  | 4 => .r4
  | 5 => .r5
  | 6 => .r6
  | _ => .r7

/-- The code of a register, the inverse of `regOfCode` (R67). -/
def Reg.code : Reg → BitVec 3
  | .r0 => 0
  | .r1 => 1
  | .r2 => 2
  | .r3 => 3
  | .r4 => 4
  | .r5 => 5
  | .r6 => 6
  | .r7 => 7

/-- The ALU controls of the field k = instr[11:6] (R68; the order is the spec's decision D3). -/
def AluControl.ofBits (k : BitVec 6) : AluControl :=
  ⟨k.getLsbD 5, k.getLsbD 4, k.getLsbD 3, k.getLsbD 2, k.getLsbD 1, k.getLsbD 0⟩

/-- The field k of a set of controls, the inverse of `AluControl.ofBits` (R68). -/
def AluControl.bits (k : AluControl) : BitVec 6 :=
  BitVec.ofBool k.zeroX ++ BitVec.ofBool k.negateX ++ BitVec.ofBool k.zeroY ++
    BitVec.ofBool k.negateY ++ BitVec.ofBool k.opSelect ++ BitVec.ofBool k.negateOut

/-- The condition of the field c = instr[13:12]: instr[13] goes with isZero, instr[12] with isNegative
(R69; the order is the spec's decision D4). -/
def JumpCond.ofBits (c : BitVec 2) : JumpCond :=
  ⟨c.getLsbD 1, c.getLsbD 0⟩

/-- The field c of a condition, the inverse of `JumpCond.ofBits` (R69). -/
def JumpCond.bits (c : JumpCond) : BitVec 2 :=
  BitVec.ofBool c.onZero ++ BitVec.ofBool c.onNegative

/-! ## Fields of an instruction word -/

/-- imm8 = instr[10:3] of format I (R64). -/
def immField (w : Word) : BitVec 8 := w.extractLsb' 3 8

/-- t = instr[8:6] of format C (R65). -/
def targetField (w : Word) : BitVec 3 := w.extractLsb' 6 3

/-- s = instr[5:3] of format C (R65). -/
def sourceField (w : Word) : BitVec 3 := w.extractLsb' 3 3

/-- c = instr[13:12] of format A (R66). -/
def condField (w : Word) : BitVec 2 := w.extractLsb' 12 2

/-- k = instr[11:6] of format A (R66). -/
def controlField (w : Word) : BitVec 6 := w.extractLsb' 6 6

/-- j = instr[5:3] of format A (R66). -/
def jumpField (w : Word) : BitVec 3 := w.extractLsb' 3 3

/-! ## The decoder table -/

/-- A row of the decoder table (R62): the class it selects, and the mask and match of its literal positions. -/
structure Template where
  cls : InstrClass
  mask : Word
  pattern : Word
deriving DecidableEq, Repr

/-- The literal positions of the template hold in `w`. -/
def Template.accepts (t : Template) (w : Word) : Bool :=
  (w &&& t.mask) == t.pattern

/-- The decoder's "ordered table" (R62, R72); PASS's two suffixes are one row, as in opcode_table.json. -/
def decoderTable : List Template :=
  [⟨.store, 0x0007, 0x0000⟩,
   ⟨.load, 0x0007, 0x0001⟩,
   ⟨.setLowBits, 0x0007, 0x0002⟩,
   ⟨.setTopBits, 0x0007, 0x0003⟩,
   ⟨.copy, 0x0007, 0x0004⟩,
   ⟨.aluOp, 0x0007, 0x0005⟩,
   ⟨.pass, 0x0006, 0x0006⟩]

/-- The decoder "finds the first template matching" (R72). -/
def findTemplate (w : Word) : Option Template :=
  decoderTable.find? fun t => t.accepts w

/-- The instruction a template makes of the fields it captures (R63 to R71). -/
def InstrClass.instr (c : InstrClass) (w : Word) : Instr :=
  match c with
  | .store => .store
  | .load => .load
  | .setLowBits => .setLowBits (immField w)
  | .setTopBits => .setTopBits (immField w)
  | .copy => .copy (regOfCode (targetField w)) (regOfCode (sourceField w))
  | .aluOp =>
      .alu (JumpCond.ofBits (condField w)) (AluControl.ofBits (controlField w))
        (regOfCode (jumpField w))
  | .pass => .pass

/-- The captured fields of a class as bit strings, left to right (60_exceptions.md R173). -/
def InstrClass.captured (c : InstrClass) (w : Word) : List Text :=
  match c with
  | .store => []
  | .load => []
  | .setLowBits => [textOf (immField w)]
  | .setTopBits => [textOf (immField w)]
  | .copy => [textOf (targetField w), textOf (sourceField w)]
  | .aluOp => [textOf (condField w), textOf (controlField w), textOf (jumpField w)]
  | .pass => []

/-- The decoder: the instruction of the first template that accepts the word, `none` where none does (R93; by R72
that happens for no word). -/
def decode (w : Word) : Option Instr :=
  (findTemplate w).map fun t => t.cls.instr w

/-! ## The encoder -/

/-- A field's bits placed at bit `lo` of a word that is 0 elsewhere. -/
def placeField {n : Nat} (v : BitVec n) (lo : Nat) : Word := v.setWidth 16 <<< lo

/-- The word of an instruction, with 0 in every wildcard position (R71, R85; 92_eei_decisions.md D7): the canonical
words of R100, R101, R110, R111, R120, R140 and R150. -/
def encode : Instr → Word
  | .store => 0x0000
  | .load => 0x0001
  | .setLowBits imm => placeField imm 3 ||| 0x0002
  | .setTopBits imm => placeField imm 3 ||| 0x0003
  | .copy t s => placeField t.code 6 ||| placeField s.code 3 ||| 0x0004
  | .alu c k j => placeField c.bits 12 ||| placeField k.bits 6 ||| placeField j.code 3 ||| 0x0005
  | .pass => 0x0006

/-! ## The opcode table's words -/

/-- The instruction word whose `nbits` low bits are `w`, any bit above them 0. -/
def tableWord (nbits w : Nat) : Word := BitVec.ofNat 16 (w % 2 ^ nbits)

/-- The instruction the decoder reads from the table's `nbits` bits `w`. -/
def decodeTableWord (nbits w : Nat) : Option Instr := decode (tableWord nbits w)

end Sys2Proof
end

