-- ==== Sys2Proof/Config.lean ====
section
/-! DEFINITION. What the driver fixes at construction, and what the spec leaves free (00_scope.md R6). -/

namespace Sys2Proof

/-- The initialisation policy the driver chooses at construction (10_state.md R31). -/
inductive InitPolicy where
  /-- "leave undefined" -/
  | undefined
  /-- "zero-fill" -/
  | zero
  /-- "randomize" -/
  | random
deriving DecidableEq, Repr

/-- INIT_REG (R6, 92_eei_decisions.md D5): the value a register R1..R7 holds before its first write under Undefined
or Random. It has no body, so nothing can be proved of its values. -/
opaque Config.initReg : Reg → Word

/-- INIT_MEM (R6, D5): the value a memory cell reads before its first write under Undefined or Random. -/
opaque Config.initMem : Word → Word

end Sys2Proof
end

