-- ==== Sys2Proof/Machine/State.lean ====
section
/-! DEFINITION. The machine's state as plain data (10_state.md), the reasons a step or a driver operation stops,
and construction, which is the only reset (70_reset_and_hazards.md R180). -/

namespace Sys2Proof.Machine

/-- The register file: eight 16-bit words (R20). -/
structure RegFile where
  r0 : Word
  r1 : Word
  r2 : Word
  r3 : Word
  r4 : Word
  r5 : Word
  r6 : Word
  r7 : Word
deriving DecidableEq, Repr

/-- The phase counter (R28): 0 is fetch, 1 is advance, 2 is execute. -/
inductive Phase where
  | fetch
  | advance
  | execute
deriving DecidableEq, Repr

/-- Memory as the cells that differ from their initial value: (address, word) pairs, addresses strictly rising.
The spec's unit is the word and it has no byte (20_memory.md R41, R42). -/
abbrev Memory := List (Nat × Word)

/-- A notification the core emits (60_exceptions.md R173). Words stand for their text forms, which they determine
and which determine them (00_scope.md R7). -/
inductive Event where
  /-- the tick notification, "carrying the new phase value" -/
  | tick (phase : Phase)
  /-- the decode notification: the instruction word, the class of the matched template and its captured fields -/
  | decode (word : Word) (cls : InstrClass) (fields : List Text)
  /-- a register change: old and new contents -/
  | register (reg : Reg) (old new : Word)
  /-- a memory change: address, old contents (`none` is "absent": not materialised) and new contents -/
  | memory (addr : Word) (old : Option Word) (new : Word)
deriving DecidableEq, Repr

/-- Why the core stops. -/
inductive Fault where
  /-- No decoder template matches the word in R1: raised by the execute phase, "fatal ... not recoverable"
  (R93, R161). Safe: the tick has no effect and no step follows; it is reached on no state (R72). -/
  | noTemplate (word : Word)
deriving DecidableEq, Repr

/-- Why an operation is refused. A step refuses nothing; the driver's input checks (R172) do. -/
inductive Refusal where
  /-- An instruction without a meaning: raised by no arm of this model. Safe. -/
  | notModelled (mnemonic : String)
  /-- "malformed-bit-string": raised by a driver operation whose text is not 16 '0'/'1' characters, or by a
  partial write whose text holds another character or runs past the word (R172). Safe: nothing changes. -/
  | malformedBitString
  /-- fromUnsigned of a negative integer: raised by a driver operation (R172, D17). Safe: nothing changes. -/
  | unsignedNegative (n : Int)
  /-- fromSigned of an integer whose magnitude is above 32767: raised by a driver operation (R172, D17). Safe:
  nothing changes. -/
  | signedOutOfRange (n : Int)
deriving DecidableEq, Repr

/-- The state of the core: the tuple that opens 10_state.md, the policy it was constructed with, and the outbox of
notifications. -/
structure State where
  /-- the register file R0..R7 (R20) -/
  x : RegFile
  /-- the memory array (R30) -/
  mem : Memory
  /-- the clock phase (R28) -/
  phase : Phase
  /-- the addresses of the materialised cells, strictly rising (R32) -/
  touched : List Nat
  /-- INIT_POLICY, chosen at construction (R31) -/
  policy : InitPolicy
  /-- the notifications the last driver operation or tick emitted, in order (R173, R174); the model's own field -/
  events : List Event
deriving DecidableEq, Repr

/-- What a register R1..R7 holds at construction (R33). -/
def initialRegister (p : InitPolicy) (r : Reg) : Word :=
  match p with
  | .zero => 0
  | .undefined => Config.initReg r
  | .random => Config.initReg r

/-- Construct(policy): the only reset (R33, R180, R182). -/
def State.construct (p : InitPolicy) : State where
  x :=
    { r0 := 0
      r1 := initialRegister p .r1
      r2 := initialRegister p .r2
      r3 := initialRegister p .r3
      r4 := initialRegister p .r4
      r5 := initialRegister p .r5
      r6 := initialRegister p .r6
      r7 := initialRegister p .r7 }
  mem := []
  phase := .execute
  touched := []
  policy := p
  events := []

/-- The machine right after reset: constructed under the Zero policy, the one whose every value the spec states
(R33; DESIGN CHOICE, notes/assumptions/2.md). `State.construct` gives the other two. -/
def State.reset : State := State.construct .zero

end Sys2Proof.Machine
end

