-- ==== Sys2Proof/Machine/Operands.lean ====
section
/-! DEFINITION. Operand forms: registers by name (10_state.md R20 to R26), the numeric views of a word
(00_scope.md R9), and its text form (R7; 60_exceptions.md R172). -/

namespace Sys2Proof.Machine

/-- x[r]: the word a register holds (00_scope.md R11). -/
def RegFile.get (x : RegFile) : Reg → Word
  | .r0 => x.r0
  | .r1 => x.r1
  | .r2 => x.r2
  | .r3 => x.r3
  | .r4 => x.r4
  | .r5 => x.r5
  | .r6 => x.r6
  | .r7 => x.r7

/-- x[r] <- v: the register file with one register replaced (00_scope.md R11). -/
def RegFile.set (x : RegFile) (r : Reg) (v : Word) : RegFile :=
  match r with
  | .r0 => { x with r0 := v }
  | .r1 => { x with r1 := v }
  | .r2 => { x with r2 := v }
  | .r3 => { x with r3 := v }
  | .r4 => { x with r4 := v }
  | .r5 => { x with r5 := v }
  | .r6 => { x with r6 := v }
  | .r7 => { x with r7 := v }

/-- w[15:8] (00_scope.md R8). -/
def highByte (w : Word) : BitVec 8 := w.extractLsb' 8 8

/-- w[7:0] (R8). -/
def lowByte (w : Word) : BitVec 8 := w.extractLsb' 0 8

/-- The concatenation with `hi` as the more significant part (R8). -/
def joinBytes (hi lo : BitVec 8) : Word := hi ++ lo

/-- The phase a tick enters: 0→1→2→0 (10_state.md R28, 40_fetch_execute.md R90). -/
def Phase.succ : Phase → Phase
  | .fetch => .advance
  | .advance => .execute
  | .execute => .fetch

/-- The phase counter's value (R28). -/
def Phase.number : Phase → Nat
  | .fetch => 0
  | .advance => 1
  | .execute => 2

/-! ## Numeric views (R9) -/

/-- uint(w): the unsigned view. -/
def uint (w : Word) : Nat := w.toNat

/-- smag(w): the sign-magnitude view; 0x0000 and 0x8000 both read as 0. -/
def smag (w : Word) : Int :=
  if w.getLsbD 15 then -((w.extractLsb' 0 15).toNat : Int) else ((w.extractLsb' 0 15).toNat : Int)

/-- fromUnsigned(n) = word(n), wrapping modulo 65536; a negative integer is refused (60_exceptions.md R172, D17). -/
def fromUnsigned (n : Int) : Except Refusal Word :=
  if n < 0 then .error (.unsignedNegative n) else .ok (BitVec.ofNat 16 n.toNat)

/-- fromSigned(n): bit 15 is n < 0, bits 14..0 are |n|; a magnitude above 32767 is refused and 0 gives +0
(R172, D17). -/
def fromSigned (n : Int) : Except Refusal Word :=
  if 32767 < n.natAbs then .error (.signedOutOfRange n)
  else .ok (BitVec.ofBool (decide (n < 0)) ++ BitVec.ofNat 15 n.natAbs)

/-! ## The text form (R7) -/

/-- The bit a text character stands for. -/
def bitOfChar (c : Char) : Option Bool :=
  if c = '0' then some false else if c = '1' then some true else none

/-- The number whose binary digits the text is, most significant first; `none` if a character is no digit. -/
def numberOfText (acc : Nat) : Text → Option Nat
  | [] => some acc
  | c :: cs =>
    match bitOfChar c with
    | some b => numberOfText (2 * acc + b.toNat) cs
    | none => none

/-- The bits a text of exactly `n` characters stands for. -/
def parseBits (n : Nat) (t : Text) : Option (BitVec n) :=
  if t.length = n then (numberOfText 0 t).map (BitVec.ofNat n) else none

/-- fromText: a word from exactly 16 '0'/'1' characters, or malformed-bit-string (R172). -/
def wordOfText (t : Text) : Except Refusal Word :=
  match parseBits 16 t with
  | some w => .ok w
  | none => .error .malformedBitString

/-- A partial write: the text replaces the run of the word's text form that begins at char-offset `offset`
(0 is the most significant end); it fails on another character or past the 16-character bound (R172). -/
def partialWrite (old : Word) (offset : Nat) (t : Text) : Except Refusal Word :=
  if offset + t.length ≤ 16 then
    wordOfText ((textOf old).take offset ++ t ++ (textOf old).drop (offset + t.length))
  else .error .malformedBitString

end Sys2Proof.Machine
end

