-- ==== Sys2Proof/Machine/Ops.lean ====
section
/-! DEFINITION. The shared operations over memory, registers and notifications (20_memory.md R45, R46;
10_state.md R32; 60_exceptions.md R173).

The core takes no exception and returns from none (R160 to R165), so no operation for that stands here. -/

namespace Sys2Proof.Machine

/-! ## Memory -/

/-- What a cell that was never written reads (10_state.md R33, R34): the ONE definition of what an unlisted address
reads as. -/
def initialWord (p : InitPolicy) (a : Nat) : Word :=
  match p with
  | .zero => 0
  | .undefined => Config.initMem (BitVec.ofNat 16 a)
  | .random => Config.initMem (BitVec.ofNat 16 a)

/-- The word at an address: the listed one, else the cell's initial value (R45). -/
def Memory.read (p : InitPolicy) (m : Memory) (a : Nat) : Word :=
  match m with
  | [] => initialWord p a
  | (b, v) :: rest => if a = b then v else Memory.read p rest a

/-- List a cell, keeping addresses rising. -/
def Memory.insert (m : Memory) (a : Nat) (v : Word) : Memory :=
  match m with
  | [] => [(a, v)]
  | (b, u) :: rest =>
    if a < b then (a, v) :: (b, u) :: rest
    else if a = b then (a, v) :: rest
    else (b, u) :: Memory.insert rest a v

/-- Unlist a cell. -/
def Memory.erase (m : Memory) (a : Nat) : Memory :=
  m.filter fun c => c.1 != a

/-- mem[a] <- v (R46); a cell that gets its initial value back is unlisted. -/
def Memory.write (p : InitPolicy) (m : Memory) (a : Nat) (v : Word) : Memory :=
  if v = initialWord p a then m.erase a else m.insert a v

/-- The canonical form: addresses strictly rising and within 0..65535, no cell listed with its initial value. -/
def Memory.wf (p : InitPolicy) (m : Memory) : Bool :=
  decide ((m.map Prod.fst).Pairwise (· < ·)) &&
    m.all fun c => decide (c.1 < 65536) && c.2 != initialWord p c.1

/-! ## The materialised set -/

/-- touched ∪ {a}, strictly rising (R32). -/
def touch (l : List Nat) (a : Nat) : List Nat :=
  match l with
  | [] => [a]
  | b :: rest =>
    if a < b then a :: b :: rest
    else if a = b then b :: rest
    else b :: touch rest a

/-! ## Operations on the state -/

/-- x[r]. -/
def State.reg (s : State) (r : Reg) : Word := s.x.get r

/-- The word a program or the driver would read at `a`, without materialising it. -/
def State.word (s : State) (a : Word) : Word := s.mem.read s.policy a.toNat

/-- `a` has been accessed (R32). -/
def State.materialised (s : State) (a : Word) : Bool := s.touched.contains a.toNat

/-- Emit one notification, after those already emitted (R173, R174). -/
def State.emit (s : State) (e : Event) : State := { s with events := s.events ++ [e] }

/-- x[r] <- v, with its register notification: one per write, whether or not the value changes (R173, D15). -/
def State.setReg (s : State) (r : Reg) (v : Word) : State :=
  { s with
    x := s.x.set r v
    events := s.events ++ [.register r (s.reg r) v] }

/-- Materialise a cell (R32, R45): no notification (D16). -/
def State.materialise (s : State) (a : Word) : State :=
  { s with touched := touch s.touched a.toNat }

/-- MemRead(a, 1): the word, and the state in which the cell is materialised (R45). -/
def State.memRead (s : State) (a : Word) : Word × State :=
  (s.word a, s.materialise a)

/-- The old contents a memory notification reports: absent where the cell was not materialised (R173, D16). -/
def State.oldWord (s : State) (a : Word) : Option Word :=
  if s.materialised a then some (s.word a) else none

/-- MemWrite(a, 1, v), with its memory notification (R46, R173). -/
def State.memWrite (s : State) (a : Word) (v : Word) : State :=
  { s with
    mem := s.mem.write s.policy a.toNat v
    touched := touch s.touched a.toNat
    events := s.events ++ [.memory a (s.oldWord a) v] }

end Sys2Proof.Machine
end

