-- ==== Sys2Proof/Machine/Flags.lean ====
section
/-! DEFINITION. The ALU (44_alu.md R130 to R136): a pure function of two words and six controls to a result and
two flags. The core stores no flag (10_state.md R27). -/

namespace Sys2Proof.Machine

/-- isNegative: "cell 15 of out" (R135). -/
def isNegative (out : Word) : Bool := out.getLsbD 15

/-- isZero: "true iff cells 0..14 of out are all false (cell 15 is ignored)" (R136). -/
def isZero (out : Word) : Bool := out.extractLsb' 0 15 == 0

/-- The sum bit of one full adder (R132). -/
def sumBit (a b c : Bool) : Bool := (a ^^ b) ^^ c

/-- The carry out of one full adder (R132). -/
def carryBit (a b c : Bool) : Bool := (a && b) || (a && c) || (b && c)

/-- The ripple-carry adder over cells 0 to n − 1: the sum bits so far, and the carry into cell n (R132). -/
def ripple (a b : Word) : (n : Nat) → BitVec n × Bool
  | 0 => (BitVec.nil, false)
  | n + 1 =>
    match ripple a b n with
    | (s, c) =>
      (BitVec.cons (sumBit (a.getLsbD n) (b.getLsbD n) c) s, carryBit (a.getLsbD n) (b.getLsbD n) c)

/-- ADD: the ripple-carry adder over all 16 cells, "final carry-out discarded" (R132). -/
def aluAdd (a b : Word) : Word := (ripple a b 16).1

/-- AND: "cellwise logical AND" (R133). -/
def aluAnd (a b : Word) : Word := a &&& b

/-- Input conditioning: zero first, then the bitwise complement (R131). -/
def condition (zero negate : Bool) (v : Word) : Word :=
  let ix := if zero then 0x0000#16 else v
  if negate then ~~~ix else ix

/-- What the ALU answers (R130). -/
structure AluResult where
  result : Word
  isNegative : Bool
  isZero : Bool
deriving DecidableEq, Repr

/-- The ALU's result: condition both inputs, ADD or AND them, complement on negateOut (R130, R131, R134). -/
def aluOut (k : AluControl) (x y : Word) : Word :=
  let ix := condition k.zeroX k.negateX x
  let iy := condition k.zeroY k.negateY y
  let out := if k.opSelect then aluAdd ix iy else aluAnd ix iy
  if k.negateOut then ~~~out else out

/-- ALU(X, Y, zeroX, negateX, zeroY, negateY, opSelect, negateOut) (R130); both flags are of the final result
(R135, R136). -/
def alu (k : AluControl) (x y : Word) : AluResult :=
  let out := aluOut k x y
  ⟨out, isNegative out, isZero out⟩

/-- An ALU-OP's jump is taken: the jump register is not R0 and both condition bits equal the flags exactly
(R140, R141). -/
def jumpTaken (c : JumpCond) (j : Reg) (r : AluResult) : Bool :=
  decide (j ≠ .r0) && (c.onZero == r.isZero) && (c.onNegative == r.isNegative)

end Sys2Proof.Machine
end

