-- ==== Sys2Proof/Machine/AluOp.lean ====
section
/-! DEFINITION. ALU-OP (44_alu.md R139 to R141). -/

namespace Sys2Proof.Machine

/-- ALU-OP: x[4] <- the ALU of x[2] and x[3]; then, if the jump is taken, pc <- x[j], read after R4 is written
(R139, R140; the read order is the spec's decision D8). -/
def execAlu (cond : JumpCond) (control : AluControl) (jump : Reg) (s : State) :
    Host.Outcome State Fault Refusal :=
  let r := alu control (s.reg .r2) (s.reg .r3)
  let t := s.setReg .r4 r.result
  .next (if jumpTaken cond jump r then t.setReg .r0 (t.reg jump) else t)

end Sys2Proof.Machine
end

