-- ==== Sys2Proof/Machine/Copy.lean ====
section
/-! DEFINITION. COPY (43_copy.md). -/

namespace Sys2Proof.Machine

/-- COPY: x[t] <- x[s], "unless target selects R1 (no-op; R1 is fetch-only)" (R120). A copy to R0 is a jump. -/
def execCopy (target source : Reg) (s : State) : Host.Outcome State Fault Refusal :=
  .next (if target = .r1 then s else s.setReg target (s.reg source))

end Sys2Proof.Machine
end

