-- ==== Sys2Proof/Machine/MemoryAccess.lean ====
section
/-! DEFINITION. STORE and LOAD (41_memory_access.md). -/

namespace Sys2Proof.Machine

/-- STORE: MemWrite(uint(x[5]), 1, x[7]) (R100). -/
def execStore (s : State) : Host.Outcome State Fault Refusal :=
  .next (s.memWrite (s.reg .r5) (s.reg .r7))

/-- LOAD: x[6] <- MemRead(uint(x[5]), 1) (R101). -/
def execLoad (s : State) : Host.Outcome State Fault Refusal :=
  match s.memRead (s.reg .r5) with
  | (w, t) => .next (t.setReg .r6 w)

end Sys2Proof.Machine
end

