-- ==== Sys2Proof/Machine/Pass.lean ====
section
/-! DEFINITION. PASS (45_pass.md). -/

namespace Sys2Proof.Machine

/-- PASS: "no effect (reserved)" (R150). -/
def execPass (s : State) : Host.Outcome State Fault Refusal :=
  .next s

end Sys2Proof.Machine
end

