-- ==== Sys2Proof/Machine/SetBits.lean ====
section
/-! DEFINITION. SETLOWBITS and SETTOPBITS (42_setbits.md). Each does the opposite of its name: the observed
behaviour is the normative one (90_conflicts.md C1). -/

namespace Sys2Proof.Machine

/-- SETLOWBITS: x[7] <- {imm8, x[7][7:0]}, the HIGH byte (R110). -/
def execSetLowBits (imm : BitVec 8) (s : State) : Host.Outcome State Fault Refusal :=
  .next (s.setReg .r7 (joinBytes imm (lowByte (s.reg .r7))))

/-- SETTOPBITS: x[7] <- {x[7][15:8], imm8}, the LOW byte (R111). -/
def execSetTopBits (imm : BitVec 8) (s : State) : Host.Outcome State Fault Refusal :=
  .next (s.setReg .r7 (joinBytes (highByte (s.reg .r7)) imm))

end Sys2Proof.Machine
end

