-- ==== Sys2Proof/Machine/Dispatch.lean ====
section
/-! DEFINITION. The dispatch of a decoded instruction to its meaning (40_fetch_execute.md R93). -/

namespace Sys2Proof.Machine

def exec (i : Instr) (s : State) : Host.Outcome State Fault Refusal :=
  match i with
  | .store => Sys2Proof.Machine.execStore s
  | .load => Sys2Proof.Machine.execLoad s
  | .setLowBits imm => Sys2Proof.Machine.execSetLowBits imm s
  | .setTopBits imm => Sys2Proof.Machine.execSetTopBits imm s
  | .copy target source => Sys2Proof.Machine.execCopy target source s
  | .alu cond control jump => Sys2Proof.Machine.execAlu cond control jump s
  | .pass => Sys2Proof.Machine.execPass s

end Sys2Proof.Machine
end

