-- ==== Sys2Proof/Machine/Clock.lean ====
section
/-! DEFINITION. The three-phase clock (40_fetch_execute.md R90 to R93). -/

namespace Sys2Proof.Machine

/-- Phase 0: R1 ← Memory[unsigned(R0)] (R91). -/
def fetch (s : State) : State :=
  match s.memRead (s.reg .r0) with
  | (w, t) => t.setReg .r1 w

/-- Phase 1: R0 ← unsigned(R0) + 1, wrapping mod 65536 (R92). -/
def advance (s : State) : State :=
  s.setReg .r0 (BitVec.ofNat 16 (uint (s.reg .r0) + 1))

/-- Phase 2: decode R1; if a template matches, emit the decode notification and run its action; if none matches,
the fatal decode error (R93, R161, R173). -/
def execute (s : State) : Host.Outcome State Fault Refusal :=
  match findTemplate (s.reg .r1) with
  | some t =>
    exec (t.cls.instr (s.reg .r1))
      (s.emit (.decode (s.reg .r1) t.cls (t.cls.captured (s.reg .r1))))
  | none => .fault (.noTemplate (s.reg .r1))

/-- The action of a phase (R90). -/
def phaseAction (p : Phase) (s : State) : Host.Outcome State Fault Refusal :=
  match p with
  | .fetch => .next (fetch s)
  | .advance => .next (advance s)
  | .execute => execute s

/-- The tick notification, last of the tick (R90, R174): it carries the new phase. -/
def finishTick (o : Host.Outcome State Fault Refusal) : Host.Outcome State Fault Refusal :=
  match o with
  | .next t => .next (t.emit (.tick t.phase))
  | .fault f => .fault f
  | .refused r => .refused r

/-- What a tick starts from: the new phase, and an empty outbox (R90). -/
def enterPhase (s : State) : State :=
  { s with phase := s.phase.succ, events := [] }

/-- Tick(): advance the phase counter, then perform the action of the phase it enters (R90). -/
def tick (s : State) : Host.Outcome State Fault Refusal :=
  finishTick (phaseAction s.phase.succ (enterPhase s))

/-- The state whose next tick executes the instruction word `w` (its `nbits` low bits): the word is in R1, where
the execute phase reads it (R93), and the phase is the one before execute (R90). Nothing else changes. -/
def placeFetchWord (s : State) (nbits w : Nat) : State :=
  { s with x := s.x.set .r1 (tableWord nbits w), phase := .advance }

end Sys2Proof.Machine
end

