-- ==== Sys2Proof/Machine/Step.lean ====
section
/-! DEFINITION. The machine's one step, the tick (40_fetch_execute.md R90, R98). -/

namespace Sys2Proof.Machine

/-- One step is one tick. -/
def step (s : State) : Host.Outcome State Fault Refusal := tick s

/-- The state whose next step runs exactly the instruction word `w` (notes/assumptions/1.md). -/
def State.withFetchWord (s : State) (nbits w : Nat) : State := placeFetchWord s nbits w

end Sys2Proof.Machine
end

