-- ==== Sys2Proof/Machine/AluTable.lean ====
section
/-! DEFINITION. The table of 44_alu.md R138: for each of the 64 control values k = zx nx zy ny f no, the function it
computes of X and Y modulo 65536, and the result for X = 0x0005, Y = 0x0003. The ALU does not use it; a statement
compares the two. -/

namespace Sys2Proof.Machine

/-- A row: k, the function column, the last column. -/
abbrev AluRow := BitVec 6 × (Word → Word → Word) × Word

/-- Rows 000000 to 001111. -/
def aluRowsLow : List AluRow :=
  [(0b000000, fun x y => x &&& y, 0x0001),
   (0b000001, fun x y => ~~~(x &&& y), 0xFFFE),
   (0b000010, fun x y => x + y, 0x0008),
   (0b000011, fun x y => ~~~(x + y), 0xFFF7),
   (0b000100, fun x y => x &&& ~~~y, 0x0004),
   (0b000101, fun x y => ~~~x ||| y, 0xFFFB),
   (0b000110, fun x y => x - y - 1, 0x0001),
   (0b000111, fun x y => y - x, 0xFFFE),
   (0b001000, fun _ _ => 0x0000, 0x0000),
   (0b001001, fun _ _ => 0xFFFF, 0xFFFF),
   (0b001010, fun x _ => x, 0x0005),
   (0b001011, fun x _ => ~~~x, 0xFFFA),
   (0b001100, fun x _ => x, 0x0005),
   (0b001101, fun x _ => ~~~x, 0xFFFA),
   (0b001110, fun x _ => x - 1, 0x0004),
   (0b001111, fun x _ => -x, 0xFFFB)]

/-- Rows 010000 to 011111. -/
def aluRowsMidLow : List AluRow :=
  [(0b010000, fun x y => ~~~x &&& y, 0x0002),
   (0b010001, fun x y => x ||| ~~~y, 0xFFFD),
   (0b010010, fun x y => y - x - 1, 0xFFFD),
   (0b010011, fun x y => x - y, 0x0002),
   (0b010100, fun x y => ~~~(x ||| y), 0xFFF8),
   (0b010101, fun x y => x ||| y, 0x0007),
   (0b010110, fun x y => -x - y - 2, 0xFFF6),
   (0b010111, fun x y => x + y + 1, 0x0009),
   (0b011000, fun _ _ => 0x0000, 0x0000),
   (0b011001, fun _ _ => 0xFFFF, 0xFFFF),
   (0b011010, fun x _ => ~~~x, 0xFFFA),
   (0b011011, fun x _ => x, 0x0005),
   (0b011100, fun x _ => ~~~x, 0xFFFA),
   (0b011101, fun x _ => x, 0x0005),
   (0b011110, fun x _ => -x - 2, 0xFFF9),
   (0b011111, fun x _ => x + 1, 0x0006)]

/-- Rows 100000 to 101111. -/
def aluRowsMidHigh : List AluRow :=
  [(0b100000, fun _ _ => 0x0000, 0x0000),
   (0b100001, fun _ _ => 0xFFFF, 0xFFFF),
   (0b100010, fun _ y => y, 0x0003),
   (0b100011, fun _ y => ~~~y, 0xFFFC),
   (0b100100, fun _ _ => 0x0000, 0x0000),
   (0b100101, fun _ _ => 0xFFFF, 0xFFFF),
   (0b100110, fun _ y => ~~~y, 0xFFFC),
   (0b100111, fun _ y => y, 0x0003),
   (0b101000, fun _ _ => 0x0000, 0x0000),
   (0b101001, fun _ _ => 0xFFFF, 0xFFFF),
   (0b101010, fun _ _ => 0x0000, 0x0000),
   (0b101011, fun _ _ => 0xFFFF, 0xFFFF),
   (0b101100, fun _ _ => 0x0000, 0x0000),
   (0b101101, fun _ _ => 0xFFFF, 0xFFFF),
   (0b101110, fun _ _ => 0xFFFF, 0xFFFF),
   (0b101111, fun _ _ => 0x0000, 0x0000)]

/-- Rows 110000 to 111111. -/
def aluRowsHigh : List AluRow :=
  [(0b110000, fun _ y => y, 0x0003),
   (0b110001, fun _ y => ~~~y, 0xFFFC),
   (0b110010, fun _ y => y - 1, 0x0002),
   (0b110011, fun _ y => -y, 0xFFFD),
   (0b110100, fun _ y => ~~~y, 0xFFFC),
   (0b110101, fun _ y => y, 0x0003),
   (0b110110, fun _ y => -y - 2, 0xFFFB),
   (0b110111, fun _ y => y + 1, 0x0004),
   (0b111000, fun _ _ => 0x0000, 0x0000),
   (0b111001, fun _ _ => 0xFFFF, 0xFFFF),
   (0b111010, fun _ _ => 0xFFFF, 0xFFFF),
   (0b111011, fun _ _ => 0x0000, 0x0000),
   (0b111100, fun _ _ => 0xFFFF, 0xFFFF),
   (0b111101, fun _ _ => 0x0000, 0x0000),
   (0b111110, fun _ _ => 0xFFFE, 0xFFFE),
   (0b111111, fun _ _ => 0x0001, 0x0001)]

/-- The whole table (R138). -/
def aluRows : List AluRow := aluRowsLow ++ aluRowsMidLow ++ aluRowsMidHigh ++ aluRowsHigh

end Sys2Proof.Machine
end

