-- ==== Sys2Proof/Machine/Assembler.lean ====
section
/-! DEFINITION. The assembler (30_encoding.md R75 to R88): toolchain, on which no rule of the core depends. Braces
stand by their character codes: no literal of the model holds one. -/

namespace Sys2Proof.Machine

/-- Assembler errors, "line-identified, fatal to the whole compile" (R88). The spec does not say how an error identifies
its line: that it carries the line's text, as the note at each constructor says, and no line number, is a DESIGN CHOICE
(notes/assumptions/25.md). -/
inductive AsmError where
  /-- redefining a bound name (R79, R81, R82); `line` is the normalised label line that redefines it -/
  | duplicateLabel (line : Text)
  /-- "unresolved symbol or malformed label" (R83); `line` is the normalised line before substitution -/
  | unresolvedSymbol (line : Text)
  /-- "unresolvable mnemonic" (R84); `line` is the line after substitution -/
  | unresolvableMnemonic (line : Text)
deriving DecidableEq, Repr

/-- The symbol table: "a map from label name to a resolved bit-string value", append-only (R79). -/
abbrev Symbols := List (Text × Text)

def leftBrace : Char := Char.ofNat 123

def rightBrace : Char := Char.ofNat 125

/-- A character that a label name may not hold, and that may not be left over after substitution (R80, R83). -/
def isLabelMark (c : Char) : Bool := c == leftBrace || c == rightBrace || c == ':'

/-- White space: blank, tab, carriage return, line feed (DESIGN CHOICE, notes/assumptions/19.md). -/
def isBlank (c : Char) : Bool := c == ' ' || c == '\t' || c == '\r' || c == '\n'

/-! ## Stage 1: normalise (R78) -/

/-- The runs of non-blank characters; `cur` holds the current run, reversed. -/
def tokensFrom (cur : Text) : Text → List Text
  | [] => if cur.isEmpty then [] else [cur.reverse]
  | c :: cs =>
    if isBlank c then
      if cur.isEmpty then tokensFrom [] cs else cur.reverse :: tokensFrom [] cs
    else tokensFrom (c :: cur) cs

/-- The words of a line. -/
def tokens (line : Text) : List Text := tokensFrom [] line

/-- Words joined by a single separator. -/
def joinTokens : List Text → Text
  | [] => []
  | [t] => t
  | t :: rest => t ++ ' ' :: joinTokens rest

/-- "trim line edges, collapse interior whitespace runs to a single separator, drop blank lines" (R78). -/
def normalise (lines : List Text) : List Text :=
  (lines.map fun l => joinTokens (tokens l)).filter fun l => !l.isEmpty

/-! ## Stages 2 and 3: labels (R81, R82) -/

/-- The characters up to a right brace, if none of them is a label mark, and what follows the brace. -/
def takeName : Text → Option (Text × Text)
  | [] => none
  | c :: cs =>
    if c == rightBrace then some ([], cs)
    else if isLabelMark c then none
    else (takeName cs).map fun r => (c :: r.1, r.2)

/-- A name in braces at the head of the text, non-empty (R80), and what follows it. -/
def takeSymbol : Text → Option (Text × Text)
  | [] => none
  | c :: cs =>
    if c == leftBrace then
      match takeName cs with
      | some (n :: ns, rest) => some (n :: ns, rest)
      | some ([], _) => none
      | none => none
    else none

/-- A label line: its name and what follows its colon. -/
def labelLine (line : Text) : Option (Text × Text) :=
  match takeSymbol line with
  | some (name, ':' :: rest) => some (name, rest)
  | some _ => none
  | none => none

/-- 8 or 16 literal bits (R81). -/
def isLabelValue (t : Text) : Bool :=
  (t.length == 8 || t.length == 16) && t.all fun c => c == '0' || c == '1'

/-- The value a name is bound to (R79). -/
def lookupSymbol (syms : Symbols) (name : Text) : Option Text :=
  match syms with
  | [] => none
  | (n, v) :: rest => if n = name then some v else lookupSymbol rest name

/-- Bind a name, or report the duplicate (R79). -/
def bindSymbol (syms : Symbols) (name value line : Text) : Except AsmError Symbols :=
  match lookupSymbol syms name with
  | some _ => .error (.duplicateLabel line)
  | none => .ok (syms ++ [(name, value)])

/-- Stage 2: every line of the exact shape name, colon, bits is bound and removed (R81). -/
def explicitLabels (syms : Symbols) : List Text → Except AsmError (Symbols × List Text)
  | [] => .ok (syms, [])
  | line :: rest =>
    match labelLine line with
    | some (name, value) =>
      if isLabelValue value then
        match bindSymbol syms name value line with
        | .ok syms' => explicitLabels syms' rest
        | .error e => .error e
      else
        match explicitLabels syms rest with
        | .ok (syms', out) => .ok (syms', line :: out)
        | .error e => .error e
    | none =>
      match explicitLabels syms rest with
      | .ok (syms', out) => .ok (syms', line :: out)
      | .error e => .error e

/-- Stage 3: every line of the exact shape name, colon is removed and bound to the number of instruction lines
before it, as 16 binary characters (R82). -/
def positionalLabels (syms : Symbols) (count : Nat) : List Text → Except AsmError (Symbols × List Text)
  | [] => .ok (syms, [])
  | line :: rest =>
    match labelLine line with
    | some (name, []) =>
      match bindSymbol syms name (textOf (BitVec.ofNat 16 count)) line with
      | .ok syms' => positionalLabels syms' count rest
      | .error e => .error e
    | some (_, _ :: _) =>
      match positionalLabels syms (count + 1) rest with
      | .ok (syms', out) => .ok (syms', line :: out)
      | .error e => .error e
    | none =>
      match positionalLabels syms (count + 1) rest with
      | .ok (syms', out) => .ok (syms', line :: out)
      | .error e => .error e

/-! ## Stage 4: symbol substitution (R83) -/

/-- The first symbol in a line: what stands before it, its name, what follows it. -/
def findSymbol : Text → Option (Text × Text × Text)
  | [] => none
  | c :: cs =>
    match takeSymbol (c :: cs) with
    | some (name, rest) => some ([], name, rest)
    | none => (findSymbol cs).map fun r => (c :: r.1, r.2)

/-- A line in which no symbol is left must hold no label mark (R83). -/
def checkMarks (whole line : Text) : Except AsmError Text :=
  if line.any isLabelMark then .error (.unresolvedSymbol whole) else .ok line

/-- Replace symbols "until none remain"; each replacement takes one left brace away, so `fuel` left braces suffice. -/
def substituteFrom (syms : Symbols) (whole : Text) : Nat → Text → Except AsmError Text
  | 0, line => checkMarks whole line
  | fuel + 1, line =>
    match findSymbol line with
    | some (before, name, rest) =>
      match lookupSymbol syms name with
      | some value => substituteFrom syms whole fuel (before ++ value ++ rest)
      | none => .error (.unresolvedSymbol whole)
    | none => checkMarks whole line

/-- Stage 4 on one line (R83). -/
def substitute (syms : Symbols) (line : Text) : Except AsmError Text :=
  substituteFrom syms line (line.count leftBrace) line

/-! ## Stage 5: encode (R84 to R87) -/

/-- The generic mnemonics (R85). -/
def genericInstr (ts : List Text) : Option Instr :=
  match ts with
  | [m] =>
    if m = "STORE".toList then some .store
    else if m = "LOAD".toList then some .load
    else if m = "PASS".toList then some .pass
    else none
  | [m, a] =>
    if m = "SETLOWBITS".toList then (parseBits 8 a).map .setLowBits
    else if m = "SETTOPBITS".toList then (parseBits 8 a).map .setTopBits
    else if m = "ALU".toList then
      (parseBits 6 a).map fun k => .alu (JumpCond.ofBits 0) (AluControl.ofBits k) .r0
    else none
  | [m, a, b] =>
    if m = "COPY".toList then
      match parseBits 3 a, parseBits 3 b with
      | some t, some s => some (.copy (regOfCode t) (regOfCode s))
      | _, _ => none
    else none
  | [m, k6, w, c2, v, r] =>
    if m = "ALU".toList ∧ w = "IF".toList ∧ v = "JUMP".toList then
      match parseBits 6 k6, parseBits 2 c2, parseBits 3 r with
      | some k, some c, some j => some (.alu (JumpCond.ofBits c) (AluControl.ofBits k) (regOfCode j))
      | _, _, _ => none
    else none
  | _ => none

/-- The alias mnemonics and their control values (R86; from general knowledge, 93_implementation_defined.md GK1). -/
def aliasTable : List (List Text × BitVec 6) :=
  [(["ZERO".toList], 0b101010),
   (["ONE".toList], 0b111111),
   (["AND".toList], 0b000000),
   (["OR".toList], 0b010101),
   (["NOT".toList, "R2".toList], 0b001101),
   (["NOT".toList, "R3".toList], 0b110001),
   (["NEG".toList, "R2".toList], 0b001111),
   (["NEG".toList, "R3".toList], 0b110011),
   (["SUM".toList], 0b000010),
   (["ADD".toList], 0b000010),
   (["R2+R3".toList], 0b000010),
   (["R2-R3".toList], 0b010011)]

/-- What may follow an alias: nothing, or IF c2 JUMP r (R86, R87). -/
def aliasTail (k : BitVec 6) (ts : List Text) : Option Instr :=
  match ts with
  | [] => some (.alu (JumpCond.ofBits 0) (AluControl.ofBits k) .r0)
  | [w, c2, v, r] =>
    if w = "IF".toList ∧ v = "JUMP".toList then
      match parseBits 2 c2, parseBits 3 r with
      | some c, some j => some (.alu (JumpCond.ofBits c) (AluControl.ofBits k) (regOfCode j))
      | _, _ => none
    else none
  | _ => none

/-- The first alias of the table whose name heads the line and whose tail fits. -/
def aliasInstr (table : List (List Text × BitVec 6)) (ts : List Text) : Option Instr :=
  match table with
  | [] => none
  | (name, k) :: rest =>
    if ts.take name.length = name then
      match aliasTail k (ts.drop name.length) with
      | some i => some i
      | none => aliasInstr rest ts
    else aliasInstr rest ts

/-- The named jumps: ZERO JMP r, SUM IF NEG JUMP r, ADD IF NEG JUMP r (R87). -/
def namedJump (ts : List Text) : Option Instr :=
  match ts with
  | [m, w, r] =>
    if m = "ZERO".toList ∧ w = "JMP".toList then
      (parseBits 3 r).map fun j => .alu (JumpCond.ofBits 0b10) (AluControl.ofBits 0b101010) (regOfCode j)
    else none
  | [m, w, n, v, r] =>
    if (m = "SUM".toList ∨ m = "ADD".toList) ∧ w = "IF".toList ∧ n = "NEG".toList ∧ v = "JUMP".toList then
      (parseBits 3 r).map fun j => .alu (JumpCond.ofBits 0b01) (AluControl.ofBits 0b000010) (regOfCode j)
    else none
  | _ => none

/-- The instruction of a line's words: "first match wins" (R84). -/
def assembleTokens (ts : List Text) : Option Instr :=
  match genericInstr ts with
  | some i => some i
  | none =>
    match aliasInstr aliasTable ts with
    | some i => some i
    | none => namedJump ts

/-- Stage 5 on one line (R84). Its error carries the text after substitution (DESIGN CHOICE, notes/assumptions/25.md). -/
def assembleLine (line : Text) : Except AsmError Word :=
  match assembleTokens (tokens line) with
  | some i => .ok (encode i)
  | none => .error (.unresolvableMnemonic line)

/-- A stage over the whole program, stopping at its first error (R75, R77). -/
def stage {β : Type} (f : Text → Except AsmError β) : List Text → Except AsmError (List β)
  | [] => .ok []
  | line :: rest =>
    match f line with
    | .ok b =>
      match stage f rest with
      | .ok bs => .ok (b :: bs)
      | .error e => .error e
    | .error e => .error e

/-- The five stages in order, "each over the whole program" (R77): the symbol table and the words. -/
def assemble (lines : List Text) : Except AsmError (Symbols × List Word) :=
  match explicitLabels [] (normalise lines) with
  | .error e => .error e
  | .ok (syms, rest) =>
    match positionalLabels syms 0 rest with
    | .error e => .error e
    | .ok (syms', code) =>
      match stage (substitute syms') code with
      | .error e => .error e
      | .ok resolved =>
        match stage assembleLine resolved with
        | .error e => .error e
        | .ok words => .ok (syms', words)

/-- compile(source lines) -> binary lines: "one 16-character binary line per instruction, in program order", or an
error and no output (R75, R88). -/
def compile (lines : List Text) : Except AsmError (List Text) :=
  match assemble lines with
  | .ok (_, words) => .ok (words.map fun w => textOf w)
  | .error e => .error e

/-! ## The generic mnemonic of an instruction -/

/-- The words of an instruction's generic mnemonic (R85). -/
def mnemonicOf : Instr → List Text
  | .store => ["STORE".toList]
  | .load => ["LOAD".toList]
  | .setLowBits imm => ["SETLOWBITS".toList, textOf imm]
  | .setTopBits imm => ["SETTOPBITS".toList, textOf imm]
  | .copy t s => ["COPY".toList, textOf t.code, textOf s.code]
  | .alu c k j =>
      ["ALU".toList, textOf k.bits, "IF".toList, textOf c.bits, "JUMP".toList, textOf j.code]
  | .pass => ["PASS".toList]

end Sys2Proof.Machine
end

