-- ==== Sys2Proof/Machine/Port.lean ====
section
/-! DEFINITION. The core's memory port (20_memory.md R55; the signals are the spec's decision D6): what a tick puts
on it. The port names the boundary; `step` itself works on the memory array. -/

namespace Sys2Proof.Machine

/-- The one access a tick may make (R55). -/
inductive PortUse where
  | idle
  | read (addr : Word)
  | write (addr wdata : Word)
deriving DecidableEq, Repr

/-- The port's outgoing signals (R55). -/
structure PortSignals where
  addr : Word
  re : Bool
  we : Bool
  wdata : Word
deriving DecidableEq, Repr

/-- The strobes and lines of an access; lines that carry nothing are 0. -/
def PortUse.signals : PortUse → PortSignals
  | .idle => ⟨0, false, false, 0⟩
  | .read a => ⟨a, true, false, 0⟩
  | .write a v => ⟨a, false, true, v⟩

/-- The access of an instruction's execute tick (R55). -/
def instrPort (i : Instr) (s : State) : PortUse :=
  match i with
  | .store => .write (s.reg .r5) (s.reg .r7)
  | .load => .read (s.reg .r5)
  | .setLowBits _ => .idle
  | .setTopBits _ => .idle
  | .copy _ _ => .idle
  | .alu _ _ _ => .idle
  | .pass => .idle

/-- The access of the tick that starts in `s` (R55). -/
def portUse (s : State) : PortUse :=
  match s.phase.succ with
  | .fetch => .read (s.reg .r0)
  | .advance => .idle
  | .execute =>
    match decode (s.reg .r1) with
    | some i => instrPort i s
    | none => .idle

end Sys2Proof.Machine
end

