-- ==== Sys2Proof/Machine/Reference.lean ====
section
/-! DEFINITION. The spec's own machine, transcribed: the state tuple that opens 10_state.md with memory as an array
and touched as a set, and the step that 40_fetch_execute.md R98 writes out. It is what the model's `step` is
compared with; no definition of the model uses it, nor it the model's decoder, meanings or ALU. -/

namespace Sys2Proof.Machine

/-- `{ x : array[0..7] of Word16, mem : array[0..65535] of Word16, phase : 0..2, touched : set of addresses }`. -/
@[ext] structure Reference where
  x : Fin 8 → Word
  mem : Word → Word
  phase : Fin 3
  touched : Word → Prop

/-- x[r] <- v. -/
def Reference.setX (s : Reference) (r : Fin 8) (v : Word) : Reference :=
  { s with x := fun q => if q = r then v else s.x q }

/-- MemRead(a, 1) materialises a (R45). -/
def Reference.materialise (s : Reference) (a : Word) : Reference :=
  { s with touched := fun b => b = a ∨ s.touched b }

/-- MemWrite(a, 1, v) (R46). -/
def Reference.memWrite (s : Reference) (a v : Word) : Reference :=
  { s with
    mem := fun b => if b = a then v else s.mem b
    touched := fun b => b = a ∨ s.touched b }

/-- The register index a field of three bits selects. -/
def fieldIndex (c : BitVec 3) : Fin 8 := ⟨c.toNat, c.isLt⟩

/-- ALU(X, Y, zx, nx, zy, ny, f, no) of R130, with ADD as a +16 b (R10): result, isNegative, isZero. -/
def referenceAlu (x y : Word) (zx nx zy ny f no : Bool) : Word × Bool × Bool :=
  let ix := if zx then 0#16 else x
  let ix := if nx then ~~~ix else ix
  let iy := if zy then 0#16 else y
  let iy := if ny then ~~~iy else iy
  let out := if f then ix + iy else ix &&& iy
  let out := if no then ~~~out else out
  (out, out.getLsbD 15, decide (out.toNat % 32768 = 0))

/-- The execute phase of R98. -/
def Reference.execute (s : Reference) : Reference :=
  let i := s.x 1
  match (i.extractLsb' 0 3).toNat with
  | 0 => s.memWrite (s.x 5) (s.x 7)
  | 1 => (s.materialise (s.x 5)).setX 6 (s.mem (s.x 5))
  | 2 => s.setX 7 (i.extractLsb' 3 8 ++ (s.x 7).extractLsb' 0 8)
  | 3 => s.setX 7 ((s.x 7).extractLsb' 8 8 ++ i.extractLsb' 3 8)
  | 4 =>
    let t := fieldIndex (i.extractLsb' 6 3)
    let src := fieldIndex (i.extractLsb' 3 3)
    if t ≠ 1 then s.setX t (s.x src) else s
  | 5 =>
    match referenceAlu (s.x 2) (s.x 3) (i.getLsbD 11) (i.getLsbD 10) (i.getLsbD 9) (i.getLsbD 8)
      (i.getLsbD 7) (i.getLsbD 6) with
    | (r, neg, zero) =>
      let s' := s.setX 4 r
      let j := fieldIndex (i.extractLsb' 3 3)
      if j ≠ 0 ∧ i.getLsbD 13 = zero ∧ i.getLsbD 12 = neg then s'.setX 0 (s'.x j) else s'
  | _ => s

/-- Tick(s) of R98. -/
def Reference.tick (s : Reference) : Reference :=
  let s := { s with phase := s.phase + 1 }
  if s.phase = 0 then (s.materialise (s.x 0)).setX 1 (s.mem (s.x 0))
  else if s.phase = 1 then s.setX 0 (s.x 0 + 1)
  else s.execute

/-- The register with an index. -/
def regOfIndex (r : Fin 8) : Reg := regOfCode (BitVec.ofNat 3 r.val)

/-- The phase counter as a number modulo 3. -/
def Phase.index : Phase → Fin 3
  | .fetch => 0
  | .advance => 1
  | .execute => 2

/-- The spec's view of a state of the model. -/
def State.view (s : State) : Reference where
  x := fun r => s.reg (regOfIndex r)
  mem := fun a => s.word a
  phase := s.phase.index
  touched := fun a => s.materialised a = true

end Sys2Proof.Machine
end

