-- ==== Sys2Proof/Machine/Driver.lean ====
section
/-! DEFINITION. The driver's operations on the core, between ticks (60_exceptions.md R170 to R172;
70_reset_and_hazards.md R183, R184). Listener management (subscribe, unsubscribe, clear) is out of scope (R5). -/

namespace Sys2Proof.Machine

/-- A word as the driver may give it (R172). -/
inductive WordArg where
  /-- the word itself -/
  | bits (w : Word)
  /-- its text form -/
  | text (t : Text)
  /-- an unsigned integer, through fromUnsigned -/
  | unsigned (n : Int)
  /-- a signed integer, through fromSigned -/
  | signed (n : Int)
deriving DecidableEq, Repr

/-- The word an argument stands for, or the input check it fails (R172). -/
def WordArg.resolve : WordArg → Except Refusal Word
  | .bits w => .ok w
  | .text t => wordOfText t
  | .unsigned n => fromUnsigned n
  | .signed n => fromSigned n

/-- What a partial write changes: a register or a memory cell (R170). -/
inductive Target where
  | register (r : Reg)
  | cell (a : Word)
deriving DecidableEq, Repr

/-- The driver's operations (R170). -/
inductive DriverOp where
  | construct (policy : InitPolicy)
  | tick
  | readReg (r : Reg)
  | writeReg (r : Reg) (v : WordArg)
  | readMem (a : Word)
  | writeMem (a : Word) (v : WordArg)
  | writeRange (target : Target) (offset : Nat) (text : Text)
deriving DecidableEq, Repr

/-- The outbox emptied, for the operation that begins (R173). -/
def State.quiet (s : State) : State := { s with events := [] }

/-- The word a target holds (R170). -/
def Target.word (t : Target) (s : State) : Word :=
  match t with
  | .register r => s.reg r
  | .cell a => s.word a

/-- Write a target, with its change notification (R173). -/
def Target.write (t : Target) (s : State) (v : Word) : State :=
  match t with
  | .register r => s.setReg r v
  | .cell a => s.memWrite a v

/-- The word the driver's read answers, where the operation is a read (R170). -/
def DriverOp.answer (op : DriverOp) (s : State) : Option Word :=
  match op with
  | .construct _ => none
  | .tick => none
  | .readReg r => some (s.reg r)
  | .writeReg _ _ => none
  | .readMem a => some (s.word a)
  | .writeMem _ _ => none
  | .writeRange _ _ _ => none

/-- A write whose word may fail its input check: "each failed operation changes nothing" (R172). -/
def writeChecked (v : Except Refusal Word) (t : Target) (s : State) : Host.Outcome State Fault Refusal :=
  match v with
  | .ok w => .next (t.write s.quiet w)
  | .error e => .refused e

/-- One operation of the driver (R170, R171). -/
def drive (op : DriverOp) (s : State) : Host.Outcome State Fault Refusal :=
  match op with
  | .construct p => .next (State.construct p)
  | .tick => step s
  | .readReg _ => .next s.quiet
  | .writeReg r v => writeChecked v.resolve (.register r) s
  | .readMem a => .next (s.quiet.memRead a).2
  | .writeMem a v => writeChecked v.resolve (.cell a) s
  | .writeRange target offset text => writeChecked (partialWrite (target.word s) offset text) target s

/-- A sequence of driver operations, stopping at the first that fails. -/
def driveAll (ops : List DriverOp) (s : State) : Host.Outcome State Fault Refusal :=
  match ops with
  | [] => .next s
  | op :: rest =>
    match drive op s with
    | .next t => driveAll rest t
    | .fault f => .fault f
    | .refused r => .refused r

/-- The writes that load a program image, "sequential loading into Memory starting at address 0" (R183): line k goes
to address `a` + k. An address past 65535 is taken modulo 65536, so line 65536 of a longer image overwrites address 0:
DESIGN CHOICE, the spec is silent on such an image (notes/assumptions/24.md). -/
def loadOps (a : Nat) (lines : List Text) : List DriverOp :=
  match lines with
  | [] => []
  | t :: rest => .writeMem (BitVec.ofNat 16 a) (.text t) :: loadOps (a + 1) rest

/-- Boot up to the first tick: Construct(policy), then load the image from address 0 (R184). -/
def bootOps (p : InitPolicy) (lines : List Text) : List DriverOp :=
  .construct p :: loadOps 0 lines

end Sys2Proof.Machine
end

