-- ==== Sys2Proof/Safety.lean ====
section
/-! DEFINITION. The terms the statements are made in: a sound representation, a safe run, what a program can see, a
frame, the notifications of an instruction, and the trace of a run. -/

namespace Sys2Proof.Machine

/-- The state's representation is sound: memory is canonical, the materialised set is strictly rising and within
the address space, and every cell that differs from its initial value has been materialised (10_state.md R32). -/
def State.wf (s : State) : Bool :=
  s.mem.wf s.policy &&
    (decide (s.touched.Pairwise (· < ·)) && s.touched.all fun a => decide (a < 65536)) &&
    s.mem.all fun c => s.touched.contains c.1

/-- The core never stops: any number of ticks from `s` gives a next state (40_fetch_execute.md R96). -/
def State.neverStops (s : State) : Prop :=
  ∀ n : Nat, ∃ t, Host.Core.run core n s = .next t

/-- What a program can see of a state: the registers, the memory cells and the phase, but not which cells are
materialised, nor the notifications (10_state.md R32; 60_exceptions.md R175). -/
def State.sameToPrograms (s t : State) : Prop :=
  s.x = t.x ∧ s.phase = t.phase ∧ ∀ a : Word, s.word a = t.word a

/-- The cell `a` holds its initial value unlisted: no write has given it another (10_state.md R34). -/
def State.unwritten (s : State) (a : Word) : Prop := ∀ c ∈ s.mem, c.1 ≠ a.toNat

/-- From `s` to `t`: every register outside `written`, every memory word outside `stored`, the phase and the policy
are unchanged, and exactly the addresses of `accessed` are newly materialised. Notifications are not part of it. -/
def State.frame (s t : State) (written : List Reg) (stored accessed : List Word) : Prop :=
  (∀ r, r ∉ written → t.reg r = s.reg r) ∧
  (∀ a, a ∉ stored → t.word a = s.word a) ∧
  (∀ a, t.materialised a = true ↔ a ∈ accessed ∨ s.materialised a = true) ∧
  t.phase = s.phase ∧ t.policy = s.policy

/-- The change notifications an instruction emits, in order (60_exceptions.md R173, R174): one per write it makes,
with the old and the new contents. -/
def changeEvents (i : Instr) (s : State) : List Event :=
  match i with
  | .store =>
    [.memory (s.reg .r5) (if s.materialised (s.reg .r5) then some (s.word (s.reg .r5)) else none) (s.reg .r7)]
  | .load => [.register .r6 (s.reg .r6) (s.word (s.reg .r5))]
  | .setLowBits imm => [.register .r7 (s.reg .r7) (joinBytes imm (lowByte (s.reg .r7)))]
  | .setTopBits imm => [.register .r7 (s.reg .r7) (joinBytes (highByte (s.reg .r7)) imm)]
  | .copy target source => if target = .r1 then [] else [.register target (s.reg target) (s.reg source)]
  | .alu c k j =>
    let r := alu k (s.reg .r2) (s.reg .r3)
    .register .r4 (s.reg .r4) r.result ::
      if jumpTaken c j r then
        [.register .r0 (s.reg .r0) (if j = .r4 then r.result else s.reg j)]
      else []
  | .pass => []

/-- A tick notification. -/
def Event.isTick : Event → Bool
  | .tick _ => true
  | .decode _ _ _ => false
  | .register _ _ _ => false
  | .memory _ _ _ => false

/-- A decode notification: one instruction executed (R173). -/
def Event.isDecode : Event → Bool
  | .tick _ => false
  | .decode _ _ _ => true
  | .register _ _ _ => false
  | .memory _ _ _ => false

/-- The notifications of the next `n` ticks from `s`, in order (R175). -/
def trace (n : Nat) (s : State) : List Event :=
  match n with
  | 0 => []
  | k + 1 =>
    match step s with
    | .next t => t.events ++ trace k t
    | .fault _ => []
    | .refused _ => []

/-- What a text's character at offset `k` is after a partial write of `t` at `offset` over `old` (R172). -/
def patchedChar (old : Word) (offset : Nat) (t : Text) (k : Nat) : Option Char :=
  if offset ≤ k ∧ k < offset + t.length then t[k - offset]? else (textOf old)[k]?

/-- A text a partial write accepts: binary characters only, within the 16-character bound (R172). -/
def writable (offset : Nat) (t : Text) : Prop :=
  offset + t.length ≤ 16 ∧ ∀ c ∈ t, c = '0' ∨ c = '1'

end Sys2Proof.Machine
end

