-- ==== Sys2Proof/Certificates/Slice0/Obligations.lean ====
section
/-! DEFINITION. The statements for the provers. Each docstring names the rules of spec/ it formalises; where a clause
rests on a choice that the spec marks as its own (D<n>) or that this model made, it says so and names the log entry. -/

open Sys2Proof Sys2Proof.Machine

/-! ## Encoding and decoding -/

/-- Decoding the encoding of an instruction gives it back, every operand at every value (R62 to R71). The control
order, the condition order and the encoder's 0 wildcards are the spec's decisions D3, D4, D7 (logs 5, 6, 7). -/
def Obligations.DecodeOfEncodeIsIdentity : Prop :=
  ∀ i : Instr, i.wellFormed = true → decode (encode i) = some i

/-- The other direction: encoding what a word decodes to gives the word with its wildcard bits cleared, so no other
bit is dropped or moved (R71, R85; D7, log 7). -/
def Obligations.EncodeOfDecodeClearsWildcards : Prop :=
  ∀ (w : Word) (i : Instr), decode w = some i → encode i = w &&& ~~~i.cls.wildcards

/-- R72: decoding is total, and exactly one row of the decoder table accepts each word. -/
def Obligations.EveryWordMatchesExactlyOneTemplate : Prop :=
  ∀ w : Word, (∃ i, decode w = some i) ∧ ∃! t, t ∈ decoderTable ∧ t.accepts w = true

/-- What each word decodes to, its fields read bit by bit at the positions of R62 to R66 (control and condition order:
D3, D4, logs 5, 6). -/
def Obligations.DecodedFieldsSitAtTheSpecsBits : Prop :=
  ∀ w : Word,
    (w.extractLsb' 0 3 = 0b000#3 → decode w = some .store) ∧
    (w.extractLsb' 0 3 = 0b001#3 → decode w = some .load) ∧
    (w.extractLsb' 0 3 = 0b010#3 →
      ∃ imm, decode w = some (.setLowBits imm) ∧ ∀ k, k < 8 → imm.getLsbD k = w.getLsbD (3 + k)) ∧
    (w.extractLsb' 0 3 = 0b011#3 →
      ∃ imm, decode w = some (.setTopBits imm) ∧ ∀ k, k < 8 → imm.getLsbD k = w.getLsbD (3 + k)) ∧
    (w.extractLsb' 0 3 = 0b100#3 →
      ∃ t s, decode w = some (.copy t s) ∧
        (∀ k, k < 3 → t.code.getLsbD k = w.getLsbD (6 + k)) ∧
        ∀ k, k < 3 → s.code.getLsbD k = w.getLsbD (3 + k)) ∧
    (w.extractLsb' 0 3 = 0b101#3 →
      ∃ j, decode w =
          some (.alu ⟨w.getLsbD 13, w.getLsbD 12⟩
            ⟨w.getLsbD 11, w.getLsbD 10, w.getLsbD 9, w.getLsbD 8, w.getLsbD 7, w.getLsbD 6⟩ j) ∧
        ∀ k, k < 3 → j.code.getLsbD k = w.getLsbD (3 + k)) ∧
    (w.extractLsb' 1 2 = 0b11#2 → decode w = some .pass)

/-- R71: changing any wildcard bits of a word (for PASS, its bit 0 too) leaves the decoded instruction as it was. -/
def Obligations.WildcardBitsReachNoAction : Prop :=
  ∀ (w flips : Word) (i : Instr), decode w = some i → decode (w ^^^ (flips &&& i.cls.wildcards)) = some i

/-- The decoder vectors V-D of 95_test_vectors.md, one or two words a class. That the fields c and k of the two ALU-OP
words name these conditions and controls is the spec's decisions D4 and D3 (logs 6, 5). -/
def Obligations.DecoderVectors : Prop :=
  decode 0b0000000000000000#16 = some .store ∧
  decode 0b1111111111111000#16 = some .store ∧
  decode 0b0000000000000001#16 = some .load ∧
  decode 0b0000010101011010#16 = some (.setLowBits 0b10101011) ∧
  decode 0b1111110000000010#16 = some (.setLowBits 0b10000000) ∧
  decode 0b0000010101011011#16 = some (.setTopBits 0b10101011) ∧
  decode 0b0000000100111100#16 = some (.copy .r4 .r7) ∧
  decode 0b1111111111110100#16 = some (.copy .r7 .r6) ∧
  decode 0b0001010011111101#16 =
    some (.alu ⟨false, true⟩ ⟨false, true, false, false, true, true⟩ .r7) ∧
  decode 0b1100000010111101#16 =
    some (.alu ⟨false, false⟩ ⟨false, false, false, false, true, false⟩ .r7) ∧
  decode 0b0000000000000110#16 = some .pass ∧
  decode 0b1111111111111111#16 = some .pass

/-! ## The tick -/

/-- A step that enters phase 2 runs the instruction in R1 once: it is `exec` of the decoded instruction, after the
new phase is entered with an empty outbox and the decode notification emitted, and followed by the tick
notification (R90, R93, R173). -/
def Obligations.StepRunsTheDecodedInstruction : Prop :=
  ∀ (s : State) (i : Instr), s.phase = .advance → decode (s.reg .r1) = some i → i.wellFormed = true →
    step s =
      match exec i { s with
          phase := .execute
          events := [.decode (s.reg .r1) i.cls (i.cls.captured (s.reg .r1))] } with
      | .next t => .next { t with events := t.events ++ [.tick t.phase] }
      | .fault f => .fault f
      | .refused r => .refused r

/-- R90: a tick advances the phase counter by 1 modulo 3, performs the action of the phase it enters (fetch, advance,
or the decoded action exactly once), and emits exactly one tick notification, with the new phase. -/
def Obligations.TickAdvancesThePhaseAndActs : Prop :=
  ∀ s : State, ∃ t, step s = .next t ∧
    t.phase.number = (s.phase.number + 1) % 3 ∧
    t.events.filter Event.isTick = [.tick t.phase] ∧
    (t.phase = .fetch → t.x = s.x.set .r1 (s.word (s.reg .r0)) ∧ ∀ a, t.word a = s.word a) ∧
    (t.phase = .advance → t.x = s.x.set .r0 (s.reg .r0 + 1) ∧ ∀ a, t.word a = s.word a) ∧
    (t.phase = .execute → ∃ i u, decode (s.reg .r1) = some i ∧ exec i s = .next u ∧
      t.x = u.x ∧ ∀ a, t.word a = u.word a)

/-- R91: fetch loads R1 from the address in R0, whatever it is, and changes no other register and no memory word; a
cell that no write has changed gives its initial value. -/
def Obligations.FetchLoadsTheInstructionRegister : Prop :=
  ∀ s : State, s.phase = .execute → ∃ t, step s = .next t ∧ t.phase = .fetch ∧
    t.reg .r1 = s.word (s.reg .r0) ∧
    (s.unwritten (s.reg .r0) → t.reg .r1 = initialWord s.policy (uint (s.reg .r0))) ∧
    t.reg .r0 = s.reg .r0 ∧
    State.frame { s with phase := .fetch } t [.r1] [] [s.reg .r0]

/-- R92: advance adds 1 to R0, 0xFFFF becoming 0x0000 without a signal, and changes nothing else. -/
def Obligations.AdvanceIncrementsThePointer : Prop :=
  ∀ s : State, s.phase = .fetch → ∃ t, step s = .next t ∧ t.phase = .advance ∧
    uint (t.reg .r0) = (uint (s.reg .r0) + 1) % 65536 ∧
    (s.reg .r0 = 0xFFFF → t.reg .r0 = 0x0000) ∧
    State.frame { s with phase := .advance } t [.r0] [] []

/-- A whole instruction cycle from phase 2: the word at the address in R0 is loaded into R1, R0 then holds the address
after it, and the third tick runs exactly that word's instruction, with every other register and memory as they
were (R94, R97). -/
def Obligations.CycleRunsTheWordAtThePointer : Prop :=
  ∀ (s : State) (i : Instr), s.phase = .execute → decode (s.word (s.reg .r0)) = some i →
    ∃ t u, step s = .next t ∧ step t = .next u ∧
      u.x = (s.x.set .r1 (s.word (s.reg .r0))).set .r0 (s.reg .r0 + 1) ∧
      (∀ a, u.word a = s.word a) ∧ u.phase = .advance ∧ u.policy = s.policy ∧
      ∃ v w, exec i u = .next v ∧ step u = .next w ∧ w.x = v.x ∧ (∀ a, w.word a = v.word a) ∧
        w.phase = .execute

/-- Every case of the step is total: from every state the tick gives a next state, never a fault or a refusal (R98;
R160 with the spec's decision D25, log 16). -/
def Obligations.EveryTickCompletes : Prop :=
  ∀ s : State, ∃ t, step s = .next t

/-- Nothing in the core stops it: any number of ticks from any state gives a next state (R96; its end of a run is the
spec's decision D19, log 21). -/
def Obligations.TheCoreNeverStops : Prop :=
  ∀ s : State, s.neverStops

/-- Refinement: for every state, one step of the model, seen through the spec's state tuple, is the Tick that
40_fetch_execute.md R98 writes out (a rule the spec derives; it rests on D3, D4, D8, D16: logs 5, 6, 8, 10). -/
def Obligations.StepRefinesTheSpecsTick : Prop :=
  ∀ s : State, ∃ t, step s = .next t ∧ t.view = s.view.tick

/-- The same over any number of ticks: the model's run is the spec's machine iterated. -/
def Obligations.RunsRefineTheSpecsMachine : Prop :=
  ∀ (n : Nat) (s : State), ∃ t, Host.Core.run core n s = .next t ∧ t.view = Reference.tick^[n] s.view

/-- An instruction takes exactly three ticks, from every state (40_fetch_execute.md section 2): a tick moves the phase
on by 1 modulo 3 and emits one tick notification, and one decode notification exactly if it enters phase 2; so n ticks
move it on by n, emit n tick notifications and execute (n + (phase + 1) mod 3) / 3 instructions, which is n / 3 from
phase 2. An instruction executed is counted by its decode notification in the outbox (this model's field, log 9). -/
def Obligations.AnInstructionEveryThreeTicks : Prop :=
  ∀ s : State,
    (∃ t, step s = .next t ∧ t.phase.number = (s.phase.number + 1) % 3 ∧
      t.events.countP Event.isTick = 1 ∧
      t.events.countP Event.isDecode = if t.phase = .execute then 1 else 0) ∧
    ∀ n : Nat, ∃ t, Host.Core.run core n s = .next t ∧
      t.phase.number = (s.phase.number + n) % 3 ∧
      (trace n s).countP Event.isTick = n ∧
      (trace n s).countP Event.isDecode = (n + (s.phase.number + 1) % 3) / 3

/-! ## The instructions -/

/-- R100: STORE writes R7 to the cell R5 addresses and changes nothing else; its words are all those that end in 000.
After a store to the address in R0 (the next sequential instruction), the very next fetch reads R7's value. -/
def Obligations.StoreWritesR7ToMemoryAtR5 : Prop :=
  (∀ w : Word, w.extractLsb' 0 3 = 0b000#3 → decode w = some .store) ∧ encode .store = 0x0000 ∧
  ∀ s : State, ∃ t, exec .store s = .next t ∧
    t.word (s.reg .r5) = s.reg .r7 ∧
    State.frame s t [] [s.reg .r5] [s.reg .r5] ∧
    (s.reg .r5 = s.reg .r0 → s.phase = .execute → ∃ u, step t = .next u ∧ u.reg .r1 = s.reg .r7)

/-- R101: LOAD puts the 16 bits of the cell R5 addresses into R6 and changes nothing else but to materialise the cell;
a cell that no write has changed gives its initial value; loading again gives the same. -/
def Obligations.LoadReadsMemoryAtR5IntoR6 : Prop :=
  (∀ w : Word, w.extractLsb' 0 3 = 0b001#3 → decode w = some .load) ∧ encode .load = 0x0001 ∧
  ∀ s : State, ∃ t, exec .load s = .next t ∧
    t.reg .r6 = BitVec.ofNat 16 (uint (s.word (s.reg .r5))) ∧ t.reg .r6 = s.word (s.reg .r5) ∧
    (s.unwritten (s.reg .r5) → t.reg .r6 = initialWord s.policy (uint (s.reg .r5))) ∧
    State.frame s t [.r6] [] [s.reg .r5] ∧
    ∃ u, exec .load t = .next u ∧ u.reg .r6 = t.reg .r6

/-- R110: SETLOWBITS writes imm8 over the HIGH byte of R7, keeps the low byte, and changes nothing else; a SETTOPBITS
before or after it gives the same R7. -/
def Obligations.SetLowBitsWritesTheHighByteOfR7 : Prop :=
  (∀ w : Word, w.extractLsb' 0 3 = 0b010#3 → decode w = some (.setLowBits (w.extractLsb' 3 8))) ∧
  (∀ imm : BitVec 8, encode (.setLowBits imm) = BitVec.ofNat 16 ((imm.toNat <<< 3) ||| 0x0002)) ∧
  ∀ (imm : BitVec 8) (s : State), ∃ t, exec (.setLowBits imm) s = .next t ∧
    highByte (t.reg .r7) = imm ∧ lowByte (t.reg .r7) = lowByte (s.reg .r7) ∧
    State.frame s t [.r7] [] [] ∧
    ∀ b : BitVec 8, ∃ u v w, exec (.setTopBits b) t = .next u ∧ exec (.setTopBits b) s = .next v ∧
      exec (.setLowBits imm) v = .next w ∧ u.reg .r7 = joinBytes imm b ∧ w.reg .r7 = joinBytes imm b

/-- R111: SETTOPBITS writes imm8 over the LOW byte of R7, keeps the high byte, and changes nothing else. -/
def Obligations.SetTopBitsWritesTheLowByteOfR7 : Prop :=
  (∀ w : Word, w.extractLsb' 0 3 = 0b011#3 → decode w = some (.setTopBits (w.extractLsb' 3 8))) ∧
  (∀ imm : BitVec 8, encode (.setTopBits imm) = BitVec.ofNat 16 ((imm.toNat <<< 3) ||| 0x0003)) ∧
  ∀ (imm : BitVec 8) (s : State), ∃ t, exec (.setTopBits imm) s = .next t ∧
    lowByte (t.reg .r7) = imm ∧ highByte (t.reg .r7) = highByte (s.reg .r7) ∧
    State.frame s t [.r7] [] []

/-- The quoted rule of R110 and R111 in the text form: SETLOWBITS overwrites the leftmost 8 characters of R7's text
with the field, SETTOPBITS the rightmost 8. -/
def Obligations.ImmediatesAreTextOverwritesOfR7 : Prop :=
  ∀ (imm : BitVec 8) (s : State), ∃ t u,
    exec (.setLowBits imm) s = .next t ∧ partialWrite (s.reg .r7) 0 (textOf imm) = .ok (t.reg .r7) ∧
    exec (.setTopBits imm) s = .next u ∧ partialWrite (s.reg .r7) 8 (textOf imm) = .ok (u.reg .r7)

/-- R112: both immediate instructions, in either order, load any constant into R7. -/
def Obligations.TwoImmediatesLoadAnyConstant : Prop :=
  ∀ (v : Word) (s : State), ∃ t u t' u',
    exec (.setLowBits (highByte v)) s = .next t ∧ exec (.setTopBits (lowByte v)) t = .next u ∧
    exec (.setTopBits (lowByte v)) s = .next t' ∧ exec (.setLowBits (highByte v)) t' = .next u' ∧
    u.reg .r7 = v ∧ u'.reg .r7 = v

/-- R120: COPY writes the source register's word to the target register, for every pair of registers, and changes
nothing else; with target R1 nothing at all changes; with target R0 the next fetch is from the source's word. A word
of COPY 000 001 that stands at the address equal to itself is a self-loop: a whole cycle leaves R0 and memory as they
were. -/
def Obligations.CopyMovesARegisterUnlessTheTargetIsR1 : Prop :=
  (∀ w : Word, w.extractLsb' 0 3 = 0b100#3 →
    decode w = some (.copy (regOfCode (w.extractLsb' 6 3)) (regOfCode (w.extractLsb' 3 3)))) ∧
  (∀ t r : Reg, encode (.copy t r) =
    BitVec.ofNat 16 ((t.code.toNat <<< 6) ||| (r.code.toNat <<< 3) ||| 0x0004)) ∧
  (∀ s : State, s.phase = .execute → (s.reg .r0).extractLsb' 0 9 = 0x00C#9 → s.word (s.reg .r0) = s.reg .r0 →
    ∃ v, Host.Core.run core 3 s = .next v ∧ v.reg .r0 = s.reg .r0 ∧ v.phase = .execute ∧
      ∀ a, v.word a = s.word a) ∧
  ∀ (target source : Reg) (s : State), ∃ t, exec (.copy target source) s = .next t ∧
    (target ≠ .r1 → t.reg target = s.reg source) ∧
    (target = .r1 → t = s) ∧
    (target = source → t.x = s.x) ∧
    State.frame s t (if target = .r1 then [] else [target]) [] [] ∧
    (target = .r0 → s.phase = .execute → ∃ u, step t = .next u ∧ u.reg .r1 = s.word (s.reg source))

/-- R140 (with D3, D4, D8: logs 5, 6, 8): ALU-OP writes the ALU's result on R2 and R3 to R4; it jumps exactly when the
jump register is not R0 and both condition bits equal the flags, to the jump register's word, which for R4 is the new
result; nothing else changes. The ALU is the one R130 writes out. -/
def Obligations.AluOpWritesR4AndMayJump : Prop :=
  ∀ (c : JumpCond) (k : AluControl) (j : Reg) (s : State), ∃ t, exec (.alu c k j) s = .next t ∧
    match referenceAlu (s.reg .r2) (s.reg .r3) k.zeroX k.negateX k.zeroY k.negateY k.opSelect k.negateOut with
    | (r, neg, zero) =>
      t.reg .r4 = r ∧
      ((j ≠ .r0 ∧ c.onZero = zero ∧ c.onNegative = neg) → t.reg .r0 = if j = .r4 then r else s.reg j) ∧
      (¬(j ≠ .r0 ∧ c.onZero = zero ∧ c.onNegative = neg) → t.reg .r0 = s.reg .r0) ∧
      State.frame s t [.r4, .r0] [] []

/-- R140's unconditional jump: with k = 101010 (ZERO) and c = 10 an ALU-OP always jumps through any register but R0,
and sets R4 to 0 (D3, D4, D8: logs 5, 6, 8). -/
def Obligations.ZeroJumpIsUnconditional : Prop :=
  ∀ (j : Reg) (s : State), ∃ t,
    exec (.alu (JumpCond.ofBits 0b10) (AluControl.ofBits 0b101010) j) s = .next t ∧ t.reg .r4 = 0 ∧
      t.reg .r0 = if j = .r4 then 0 else s.reg j

/-- R150: every word with bits[2:1] = 11 is a PASS, `exec` of PASS changes nothing at all, and its execute tick changes
the phase and the notifications only (its canonical word is the spec's decision D7, log 7). That those are the decode
notification and then the tick notification rests on the spec's decision D9 and on the outbox, this model's DESIGN
CHOICE (log 9). -/
def Obligations.PassChangesNothing : Prop :=
  encode .pass = 0x0006 ∧ (∀ s : State, exec .pass s = .next s) ∧
  ∀ (w : Word) (s : State), w.extractLsb' 1 2 = 0b11#2 →
    ∃ t, step (s.withFetchWord 16 w.toNat) = .next t ∧
      t.x = s.x.set .r1 w ∧ t.mem = s.mem ∧ t.touched = s.touched ∧ t.policy = s.policy ∧ t.phase = .execute ∧
      t.events = [.decode w .pass [], .tick .execute]

/-- R73: suffixes 110 and 111 have no effect, no word is illegal or traps, and the wildcard bits of every class are
accepted at any value and ignored. -/
def Obligations.NoEncodingIsIllegalOrTraps : Prop :=
  (∀ w : Word, w.extractLsb' 1 2 = 0b11#2 → ∃ i, decode w = some i ∧ ∀ s : State, exec i s = .next s) ∧
  (∀ (w : Word) (s : State), ∃ t, step (s.withFetchWord 16 w.toNat) = .next t) ∧
  ∀ (w flips : Word) (i : Instr), decode w = some i → decode (w ^^^ (flips &&& i.cls.wildcards)) = some i

/-! ## Whole-machine rules -/

/-- R23: who writes which register. A register that a tick changes is R1 in a fetch and R0 in an advance; in an
execute it is in the row of the instruction in R1: a LOAD only R6, the immediates only R7, a COPY only its target and
never R1, an ALU-OP only R4 and, with a jump register other than R0, R0; a STORE and a PASS none. -/
def Obligations.EachTickWritesOnlyItsRegisters : Prop :=
  ∀ (s t : State) (r : Reg), step s = .next t → t.reg r ≠ s.reg r →
    match t.phase with
    | .fetch => r = .r1
    | .advance => r = .r0
    | .execute =>
      ∃ i, decode (s.reg .r1) = some i ∧
        match i with
        | .store => False
        | .load => r = .r6
        | .setLowBits _ => r = .r7
        | .setTopBits _ => r = .r7
        | .copy target _ => r = target ∧ target ≠ .r1
        | .alu _ _ j => r = .r4 ∨ (r = .r0 ∧ j ≠ .r0)
        | .pass => False

/-- R40, R46: a tick changes a memory word only by executing a STORE, and only the word R5 addresses. -/
def Obligations.OnlyStoreChangesMemory : Prop :=
  ∀ (s t : State) (a : Word), step s = .next t → t.word a ≠ s.word a →
    s.phase = .advance ∧ decode (s.reg .r1) = some .store ∧ a = s.reg .r5 ∧ t.word a = s.reg .r7

/-- R26: the core writes R1 only in phase 0, with the fetched word; COPY to R1 is a no-op; a COPY or an ALU-OP jump
that reads R1 gets the word now executing; the driver may write R1. -/
def Obligations.OnlyFetchWritesTheInstructionRegister : Prop :=
  (∀ s t : State, step s = .next t → t.phase ≠ .fetch → t.reg .r1 = s.reg .r1) ∧
  (∀ s t : State, step s = .next t → t.phase = .fetch → t.reg .r1 = s.word (s.reg .r0)) ∧
  (∀ (source : Reg) (s : State), exec (.copy .r1 source) s = .next s) ∧
  (∀ (target : Reg) (s : State), target ≠ .r1 → s.phase = .advance →
    decode (s.reg .r1) = some (.copy target .r1) → ∃ t, step s = .next t ∧ t.reg target = s.reg .r1) ∧
  (∀ (c : JumpCond) (k : AluControl) (s : State), s.phase = .advance →
    decode (s.reg .r1) = some (.alu c k .r1) → jumpTaken c .r1 (alu k (s.reg .r2) (s.reg .r3)) = true →
    ∃ t, step s = .next t ∧ t.reg .r0 = s.reg .r1) ∧
  ∀ (s : State) (v : Word), ∃ t, drive (.writeReg .r1 (.bits v)) s = .next t ∧ t.reg .r1 = v

/-- R53: a STORE is seen by the very next fetch. After the execute tick of a STORE and the next tick, R1 holds the
stored word if the store was to the address in R0, and the old word of that address otherwise. -/
def Obligations.StoreIsSeenByTheNextFetch : Prop :=
  ∀ s : State, s.phase = .advance → decode (s.reg .r1) = some .store →
    ∃ t u, step s = .next t ∧ step t = .next u ∧ t.reg .r1 = s.reg .r1 ∧
      u.reg .r1 = if s.reg .r5 = s.reg .r0 then s.reg .r7 else s.word (s.reg .r0)

/-- R55 (the port is the spec's decision D6, log 17): what a tick does to memory is the one access its port shows:
no access, or a read whose word lands in R1 (fetch) or R6 (LOAD), or a write of the port's data. -/
def Obligations.ThePortShowsEveryAccess : Prop :=
  ∀ s : State, ∃ t, step s = .next t ∧
    match portUse s with
    | .idle => (∀ a, t.word a = s.word a) ∧ ∀ a, t.materialised a = s.materialised a
    | .read a =>
      (∀ b, t.word b = s.word b) ∧ (∀ b, t.materialised b = true ↔ b = a ∨ s.materialised b = true) ∧
      (s.phase = .execute → t.reg .r1 = s.word a) ∧ (s.phase = .advance → t.reg .r6 = s.word a)
    | .write a v =>
      (∀ b, t.word b = if b = a then v else s.word b) ∧
      ∀ b, t.materialised b = true ↔ b = a ∨ s.materialised b = true

/-- R32, R34: which cells are materialised, and what was notified, never reaches a program: two states that differ in
nothing else run alike for any number of ticks (that every access materialises is the spec's decision D16, log 10). -/
def Obligations.MaterialisationIsUnobservable : Prop :=
  ∀ (n : Nat) (s s' : State), s.sameToPrograms s' →
    ∃ t t', Host.Core.run core n s = .next t ∧ Host.Core.run core n s' = .next t' ∧ t.sameToPrograms t'

/-! ## Invariants -/

/-- The representation is sound at construction under every policy, and at reset. -/
def Obligations.ConstructionIsSound : Prop :=
  (∀ p : InitPolicy, (State.construct p).wf = true) ∧ State.reset.wf = true

/-- Every tick keeps the representation sound: memory canonical, the materialised set rising and within 0..65535, every
changed cell materialised (R30, R32). -/
def Obligations.EveryTickKeepsTheStateSound : Prop :=
  ∀ s t : State, s.wf = true → step s = .next t → t.wf = true

/-- Every driver operation keeps the representation sound. -/
def Obligations.EveryDriverOperationKeepsTheStateSound : Prop :=
  ∀ (op : DriverOp) (s t : State), s.wf = true → drive op s = .next t → t.wf = true

/-- A cell that a program or the driver has given a value is materialised, and stays so: materialisation is never
undone by a tick (R32). -/
def Obligations.MaterialisedCellsStayMaterialised : Prop :=
  ∀ (s t : State) (a : Word), step s = .next t → s.materialised a = true → t.materialised a = true

/-! ## The ALU -/

/-- R132: the adder is a chain of full adders from cell 0 to 15 whose carry out is discarded, and so it is addition
modulo 65536. -/
def Obligations.RippleCarryAddIsAdditionMod65536 : Prop :=
  ∀ a b : Word,
    (∃ c : Nat → Bool, c 0 = false ∧ ∀ k, k < 16 →
      (aluAdd a b).getLsbD k = ((a.getLsbD k ^^ b.getLsbD k) ^^ c k) ∧
      c (k + 1) = ((a.getLsbD k && b.getLsbD k) || (a.getLsbD k && c k) || (b.getLsbD k && c k))) ∧
    aluAdd a b = BitVec.ofNat 16 (uint a + uint b) ∧
    uint (aluAdd a b) = (uint a + uint b) % 65536

/-- R135, R136: isNegative is bit 15 of the final result; isZero holds for 0x0000 and 0x8000 and no other result; both
hold exactly for 0x8000. -/
def Obligations.FlagsAreTheSignMagnitudeSignAndZero : Prop :=
  ∀ (k : AluControl) (x y : Word),
    ((alu k x y).isNegative = true ↔ 0x8000 ≤ uint (alu k x y).result) ∧
    ((alu k x y).isZero = true ↔ (alu k x y).result = 0x0000 ∨ (alu k x y).result = 0x8000) ∧
    ((alu k x y).isNegative = true ∧ (alu k x y).isZero = true ↔ (alu k x y).result = 0x8000)

/-- R130, R131, R133, R134: the ALU of the model is the one the spec writes out, with ADD as addition modulo 65536, for
all controls and operands. -/
def Obligations.AluIsTheSpecsFunction : Prop :=
  ∀ (k : AluControl) (x y : Word),
    referenceAlu x y k.zeroX k.negateX k.zeroY k.negateY k.opSelect k.negateOut =
      ((alu k x y).result, (alu k x y).isNegative, (alu k x y).isZero)

/-- R138 (a table the spec derives; control order D3, log 5): all 64 control values are in the table once, and each
computes its row's function, with the row's result for 5 and 3. -/
def Obligations.AluComputesTheSpecsTable : Prop :=
  (aluRows.map Prod.fst).Nodup ∧ aluRows.length = 64 ∧
  ∀ row ∈ aluRows, (∀ x y : Word, aluOut (AluControl.ofBits row.1) x y = row.2.1 x y) ∧
    aluOut (AluControl.ofBits row.1) 0x0005 0x0003 = row.2.2

/-- R137 (a rule the spec derives; control order D3, log 5): negation and subtraction come out in two's complement, not
in sign-magnitude. -/
def Obligations.NegateAndSubtractAreTwosComplement : Prop :=
  (∀ x y : Word, uint (aluOut (AluControl.ofBits 0b001111) x y) = (65536 - uint x) % 65536) ∧
  (∀ x y : Word, uint (aluOut (AluControl.ofBits 0b010011) x y) = (uint x + 65536 - uint y) % 65536) ∧
  (∀ x y : Word, (aluOut (AluControl.ofBits 0b010011) x y).toInt = (x.toInt - y.toInt).bmod 65536) ∧
  smag (aluOut (AluControl.ofBits 0b001111) 0x0001 0x0000) = -32767 ∧
  aluAdd 0x0002 0x7FFF = 0x8001 ∧ smag 0x8001 = -1

/-- R141 (condition order D4, log 6): for each result exactly one condition jumps, and which one is the table's. -/
def Obligations.ExactlyOneConditionJumps : Prop :=
  ∀ (j : Reg) (k : AluControl) (x y : Word),
    (j ≠ .r0 → ∃! c : JumpCond, jumpTaken c j (alu k x y) = true) ∧
    (∀ c, jumpTaken c .r0 (alu k x y) = false) ∧
    (j ≠ .r0 →
      (jumpTaken (JumpCond.ofBits 0b00) j (alu k x y) = true ↔
        0x0001 ≤ uint (alu k x y).result ∧ uint (alu k x y).result ≤ 0x7FFF) ∧
      (jumpTaken (JumpCond.ofBits 0b01) j (alu k x y) = true ↔ 0x8001 ≤ uint (alu k x y).result) ∧
      (jumpTaken (JumpCond.ofBits 0b10) j (alu k x y) = true ↔ (alu k x y).result = 0x0000) ∧
      (jumpTaken (JumpCond.ofBits 0b11) j (alu k x y) = true ↔ (alu k x y).result = 0x8000))

/-! ## Memory -/

/-- R46: MemWrite changes only its cell: what is read there is the word written, every other cell reads as before, and
the cell is materialised; it never fails. -/
def Obligations.WriteThenReadGivesTheWordWritten : Prop :=
  ∀ (s : State) (a v : Word), ∃ t, drive (.writeMem a (.bits v)) s = .next t ∧
    (DriverOp.readMem a).answer t = some v ∧
    (∀ b, b ≠ a → (DriverOp.readMem b).answer t = (DriverOp.readMem b).answer s) ∧
    (∀ b, t.materialised b = true ↔ b = a ∨ s.materialised b = true) ∧ t.x = s.x

/-- R45: MemRead answers the cell's word, which for a cell no write has changed is its initial value; it materialises
the cell, and reading again answers the same. -/
def Obligations.ReadsAreStableAndMaterialise : Prop :=
  ∀ (s : State) (a : Word),
    (s.memRead a).1 = s.word a ∧
    (s.unwritten a → (s.memRead a).1 = initialWord s.policy (uint a)) ∧
    (∀ b, ((s.memRead a).2.memRead b).1 = (s.memRead b).1) ∧
    (∀ b, (s.memRead a).2.materialised b = true ↔ b = a ∨ s.materialised b = true) ∧
    (∀ v, ((s.memWrite a v).memRead a).1 = v)

/-! ## Reset and boot -/

/-- R33, R182: what construction leaves under each policy: R0 is 0, R1..R7 and memory are 0 under Zero and INIT_REG and
INIT_MEM (free values, log 3) otherwise, nothing is materialised, the phase is 2 (the spec's decision D2, log 4). -/
def Obligations.ConstructionLeavesTheResetValues : Prop :=
  (∀ p : InitPolicy, (State.construct p).reg .r0 = 0 ∧ (State.construct p).phase.number = 2 ∧
    ∀ a, (State.construct p).materialised a = false) ∧
  (∀ r, (State.construct .zero).reg r = 0) ∧ (∀ a, (State.construct .zero).word a = 0) ∧
  (∀ p : InitPolicy, p ≠ .zero →
    (∀ r, r ≠ .r0 → (State.construct p).reg r = Config.initReg r) ∧
    ∀ a, (State.construct p).word a = Config.initMem a)

/-- `State.reset` is construction under the Zero policy: this model's choice among the three (DESIGN CHOICE, log 2). -/
def Obligations.ResetHoldsTheZeroPolicysValues : Prop :=
  drive (.construct .zero) State.reset = .next State.reset ∧ (∀ r, State.reset.reg r = 0) ∧
  (∀ a, State.reset.word a = 0) ∧ State.reset.phase = .execute

/-- R181, R184 (phase 2 at construction is D2, log 4): the first instruction executed is the word the driver put at
address 0, executed in the third tick with R0 = 1; the state before it is the one `withFetchWord` builds (log 1). -/
def Obligations.TheFirstInstructionIsTheWordAtAddressZero : Prop :=
  ∀ (p : InitPolicy) (w : Word), ∃ a b c,
    drive (.writeMem 0 (.bits w)) (State.construct p) = .next a ∧ step a = .next b ∧ step b = .next c ∧
    c.reg .r0 = 1 ∧ c.reg .r1 = w ∧ c = c.withFetchWord 16 w.toNat ∧
    (∀ r, r ≠ .r0 → r ≠ .r1 → c.reg r = (State.construct p).reg r) ∧
    ∃ i d e, decode w = some i ∧ exec i c = .next d ∧ step c = .next e ∧ e.x = d.x ∧ ∀ v, e.word v = d.word v

/-- R183, R184: booting loads line k of a program image at address k and leaves every other cell at its initial value,
R0 at 0 and the phase at 2 (the spec's decision D2, log 4), so the first tick fetches line 0. An image longer than the
address space is left out here: what the model does with it is its own choice (log 24). -/
def Obligations.BootLoadsTheImageFromAddressZero : Prop :=
  ∀ (p : InitPolicy) (words : List Word) (s : State), words.length ≤ 65536 →
    ∃ t, driveAll (bootOps p (words.map fun w => textOf w)) s = .next t ∧
      (∀ k, k < words.length → some (t.word (BitVec.ofNat 16 k)) = words[k]?) ∧
      (∀ a, words.length ≤ uint a → t.word a = initialWord p (uint a)) ∧
      t.x = (State.construct p).x ∧ t.phase = .execute ∧ t.policy = p

/-! ## Notifications -/

/-- R173, R174 (order D9, unchanged values D15, materialisation D16; the outbox is this model's field: logs 9, 10):
what a tick emits, in order. A fetch: the change of R1, the tick. An advance: the change of R0, the tick. An execute:
the decode notification, one change per write of the instruction, the tick. -/
def Obligations.TicksEmitTheSpecsNotifications : Prop :=
  ∀ s : State, ∃ t, step s = .next t ∧
    (t.phase = .fetch → t.events =
      [.register .r1 (s.reg .r1) (s.word (s.reg .r0)), .tick .fetch]) ∧
    (t.phase = .advance → t.events =
      [.register .r0 (s.reg .r0) (s.reg .r0 + 1), .tick .advance]) ∧
    (t.phase = .execute → ∃ i, decode (s.reg .r1) = some i ∧
      t.events =
        .decode (s.reg .r1) i.cls (i.cls.captured (s.reg .r1)) :: (changeEvents i s ++ [.tick .execute]))

/-! ## The driver -/

/-- R7: bit i carries weight 2^i, character k of the text form is bit 15 − k, and text form and bits convert into each
other without loss in both directions. -/
def Obligations.TextFormIsLossless : Prop :=
  (∀ w : Word, uint w = ∑ i ∈ Finset.range 16, (w.getLsbD i).toNat * 2 ^ i) ∧
  (∀ w : Word, (textOf w).length = 16) ∧
  (∀ (w : Word) (k : Nat), k < 16 → (textOf w)[k]? = some (if w.getLsbD (15 - k) then '1' else '0')) ∧
  (∀ w : Word, wordOfText (textOf w) = .ok w) ∧
  ∀ (t : Text) (w : Word), wordOfText t = .ok w → textOf w = t

/-- R9: the sign-magnitude view: the sign is bit 15, the magnitude bits 14..0; its range is −32767 to 32767; both zeros
read as 0; the ALU's flags are its sign bit and its zero test. -/
def Obligations.SignMagnitudeView : Prop :=
  ∀ w : Word,
    smag w = (if w.getLsbD 15 then -1 else 1) * ∑ i ∈ Finset.range 15, ((w.getLsbD i).toNat * 2 ^ i : Int) ∧
    -32767 ≤ smag w ∧ smag w ≤ 32767 ∧ (smag w = 0 ↔ w = 0x0000 ∨ w = 0x8000) ∧
    (isZero w = true ↔ smag w = 0) ∧ (smag w < 0 → isNegative w = true)

/-- R172 (refused ranges and +0 are the spec's decision D17, log 13): the driver's integer conversions. -/
def Obligations.DriverIntegerConversions : Prop :=
  (∀ n : Int, n.natAbs ≤ 32767 → ∃ w, fromSigned n = .ok w ∧ smag w = n ∧ (w.getLsbD 15 = true ↔ n < 0)) ∧
  (∀ n : Int, 32767 < n.natAbs → fromSigned n = .error (.signedOutOfRange n)) ∧
  (∀ n : Nat, ∃ w, fromUnsigned n = .ok w ∧ uint w = n % 65536 ∧ fromUnsigned (65536 + n) = .ok w) ∧
  ∀ n : Int, n < 0 → fromUnsigned n = .error (.unsignedNegative n)

/-- R172: a partial write replaces exactly the characters of its run, in a register or a memory cell, and changes no
other register or cell; it is refused, changing nothing, exactly when a character is no '0' or '1' or the run passes
the 16-character bound (an empty text is a write of the old word: this model's choice, DESIGN CHOICE, log 23). -/
def Obligations.PartialWritesPatchTheTextForm : Prop :=
  ∀ (target : Target) (offset : Nat) (text : Text) (s : State),
    (writable offset text → ∃ t, drive (.writeRange target offset text) s = .next t ∧
      (∀ k, k < 16 → (textOf (target.word t))[k]? = patchedChar (target.word s) offset text k) ∧
      (∀ r, target ≠ .register r → t.reg r = s.reg r) ∧
      (∀ a, target ≠ .cell a → t.word a = s.word a) ∧ t.phase = s.phase) ∧
    (¬ writable offset text → drive (.writeRange target offset text) s = .refused .malformedBitString)

/-- R170, R172: a driver write stores the word its argument stands for, with one change notification, whether or not
the value changes (D15), an untouched cell's old word being absent (D16), in the outbox (logs 9, 10); a text that is not
16 '0'/'1' characters is refused. -/
def Obligations.DriverWritesStoreTheResolvedWord : Prop :=
  ∀ (r : Reg) (a : Word) (s : State),
    (∀ (v : WordArg) (w : Word), v.resolve = .ok w →
      (∃ t, drive (.writeReg r v) s = .next t ∧ (DriverOp.readReg r).answer t = some w ∧
        (∀ q, q ≠ r → t.reg q = s.reg q) ∧ t.mem = s.mem ∧ t.phase = s.phase ∧
        t.events = [.register r (s.reg r) w]) ∧
      ∃ t, drive (.writeMem a v) s = .next t ∧ t.word a = w ∧ (∀ b, b ≠ a → t.word b = s.word b) ∧
        t.x = s.x ∧ t.phase = s.phase ∧
        t.events = [.memory a (if s.materialised a then some (s.word a) else none) w]) ∧
    ∀ text : Text, (text.length ≠ 16 ∨ ∃ c ∈ text, c ≠ '0' ∧ c ≠ '1') →
      drive (.writeReg r (.text text)) s = .refused .malformedBitString ∧
      drive (.writeMem a (.text text)) s = .refused .malformedBitString

/-- R171: a driver read changes nothing a program can see and notifies nothing; reading memory materialises the cell
(between ticks only: the spec's decision D14, log 13; that the read materialises it and notifies nothing: D16 and the
outbox, logs 10, 9). -/
def Obligations.DriverReadsAreInvisibleToPrograms : Prop :=
  ∀ (r : Reg) (a : Word) (s : State),
    (∃ t, drive (.readReg r) s = .next t ∧ s.sameToPrograms t ∧ t.touched = s.touched ∧ t.events = [] ∧
      (DriverOp.readReg r).answer s = some (s.reg r)) ∧
    ∃ t, drive (.readMem a) s = .next t ∧ s.sameToPrograms t ∧ t.materialised a = true ∧ t.events = [] ∧
      (DriverOp.readMem a).answer s = some (s.word a)

/-- R171: a driver write between ticks is seen by the next tick: R1 before a phase-2 tick is what executes, R0 before a
phase-0 tick is where it fetches, R0 before a phase-1 tick is what is incremented, and a cell written before a
phase-0 tick is what it fetches (between ticks only: the spec's decision D14, log 13). -/
def Obligations.TheNextTickSeesTheDriversWrite : Prop :=
  ∀ (s : State) (v : Word),
    (s.phase = .advance → ∃ t i u w, drive (.writeReg .r1 (.bits v)) s = .next t ∧ decode v = some i ∧
      exec i t = .next u ∧ step t = .next w ∧ w.x = u.x ∧ ∀ a, w.word a = u.word a) ∧
    (s.phase = .execute → ∃ t u, drive (.writeReg .r0 (.bits v)) s = .next t ∧ step t = .next u ∧
      u.reg .r1 = s.word v) ∧
    (s.phase = .fetch → ∃ t u, drive (.writeReg .r0 (.bits v)) s = .next t ∧ step t = .next u ∧
      u.reg .r0 = v + 1) ∧
    (s.phase = .execute → ∃ t u, drive (.writeMem (s.reg .r0) (.bits v)) s = .next t ∧ step t = .next u ∧
      u.reg .r1 = v)

/-! ## The assembler (toolchain) -/

/-- R85 (wildcards 0 and PASS as 0x0006 are the spec's decision D7, log 7): the generic mnemonic of every instruction
assembles to its encoding. -/
def Obligations.GenericMnemonicsAssembleToTheEncoding : Prop :=
  ∀ i : Instr, assembleLine (joinTokens (mnemonicOf i)) = .ok (encode i)

/-- R86 (values from general knowledge, decision D13, log 18): each alias assembles to an ALU-OP that never jumps and
computes the function its row names. -/
def Obligations.AliasesComputeWhatTheyName : Prop :=
  ∀ x y : Word, ∀ row ∈ ([("ZERO", 0), ("ONE", 1), ("AND", x &&& y), ("OR", x ||| y), ("NOT R2", ~~~x),
      ("NOT R3", ~~~y), ("NEG R2", -x), ("NEG R3", -y), ("SUM", x + y), ("ADD", x + y), ("R2+R3", x + y),
      ("R2-R3", x - y)] : List (String × Word)),
    ∃ w c k, assembleLine row.1.toList = .ok w ∧ decode w = some (.alu c k .r0) ∧ aluOut k x y = row.2

/-- R75, R88: a compile that succeeds gives words only: every output line is 16 binary characters, and there are no
more of them than source lines; a compile that fails gives no output at all. -/
def Obligations.CompileGivesWholeWordsOrNothing : Prop :=
  ∀ lines : List Text,
    (∃ e, compile lines = .error e) ∨
    ∃ out, compile lines = .ok out ∧ out.length ≤ lines.length ∧
      ∀ l ∈ out, ∃ w, wordOfText l = .ok w
end

