-- ==== Sys2Proof/Laws/Decode.lean ====
section
/-! SUPPORT. What the decoder answers, by the opcode suffix (30_encoding.md R62). -/

namespace Sys2Proof

/-- The low three bits, as the masks of the table see them. -/
theorem and_seven_eq (w : Word) : w &&& 0x0007#16 = (w.extractLsb' 0 3).setWidth 16 := by
  apply BitVec.eq_of_getLsbD_eq
  intro k hk
  rcases (by omega : k = 0 ∨ k = 1 ∨ k = 2 ∨ 3 ≤ k) with rfl | rfl | rfl | h3
  · simp
  · simp
  · simp
  · have h7 : (0x0007#16).getLsbD k = false := by
      rcases Nat.lt_or_ge k 16 with h | h
      · interval_cases k <;> rfl
      · simp [BitVec.getLsbD_of_ge, h]
    simp only [BitVec.getLsbD_and, h7, Bool.and_false, BitVec.getLsbD_setWidth,
      BitVec.getLsbD_extractLsb']
    simp [show ¬ k < 3 by omega]

/-- A template accepts a word exactly by the word's suffix. -/
theorem accepts_suffix (t : Template) (ht : t ∈ decoderTable) (w : Word) :
    t.accepts w = t.accepts ((w.extractLsb' 0 3).setWidth 16) := by
  have h6 : ∀ v : Word, v &&& 0x0006#16 = (v &&& 0x0007#16) &&& 0x0006#16 := by
    intro v
    rw [BitVec.and_assoc]
    rfl
  have h7 : ∀ v : BitVec 3, (v.setWidth 16 : Word) &&& 0x0007#16 = v.setWidth 16 := by decide
  simp only [decoderTable, List.mem_cons, List.not_mem_nil, or_false] at ht
  rcases ht with rfl | rfl | rfl | rfl | rfl | rfl | rfl
  case inr.inr.inr.inr.inr.inr =>
    refine congrArg (· == (0x0006 : Word)) ?_
    exact (h6 w).trans (((congrArg (· &&& 0x0006#16) ((and_seven_eq w).trans (h7 _).symm))).trans
      (h6 _).symm)
  all_goals exact congrArg (· == _) ((and_seven_eq w).trans (h7 _).symm)

/-- The template a suffix selects. -/
def suffixTemplate (c : BitVec 3) : Option Template :=
  findTemplate (c.setWidth 16)

theorem find?_congr_mem {α : Type} (p q : α → Bool) (l : List α) (h : ∀ a ∈ l, p a = q a) :
    l.find? p = l.find? q := by
  induction l with
  | nil => rfl
  | cons a rest ih =>
    rw [List.find?_cons, List.find?_cons, h a List.mem_cons_self,
      ih fun b hb => h b (List.mem_cons_of_mem a hb)]

/-- The decoder reads the suffix alone (R62). -/
theorem findTemplate_eq (w : Word) : findTemplate w = suffixTemplate (w.extractLsb' 0 3) :=
  find?_congr_mem _ _ _ fun t ht => accepts_suffix t ht w

/-- The class of a suffix (R62). -/
def suffixClass (c : BitVec 3) : InstrClass :=
  match c.toNat with
  | 0 => .store
  | 1 => .load
  | 2 => .setLowBits
  | 3 => .setTopBits
  | 4 => .copy
  | 5 => .aluOp
  | _ => .pass

theorem suffixTemplate_cls : ∀ c : BitVec 3, (suffixTemplate c).map Template.cls = some (suffixClass c) := by
  decide

/-- Some template is found for every word, and its class is the suffix's. -/
theorem findTemplate_cls (w : Word) :
    ∃ t, findTemplate w = some t ∧ t.cls = suffixClass (w.extractLsb' 0 3) := by
  have h := suffixTemplate_cls (w.extractLsb' 0 3)
  rw [← findTemplate_eq] at h
  cases ht : findTemplate w with
  | none => rw [ht] at h; cases h
  | some t => rw [ht] at h; exact ⟨t, rfl, by simpa using h⟩

/-- The decoder's answer, by the suffix. -/
theorem decode_eq (w : Word) : decode w = some ((suffixClass (w.extractLsb' 0 3)).instr w) := by
  obtain ⟨t, ht, hc⟩ := findTemplate_cls w
  simp [decode, ht, hc]

/-- A word of the table, numbered as itself. -/
@[simp] theorem tableWord_toNat (w : Word) : tableWord 16 w.toNat = w := by
  apply BitVec.eq_of_toNat_eq
  simp only [tableWord, BitVec.toNat_ofNat]
  have := w.isLt
  omega

/-- The class's instruction has that class. -/
@[simp] theorem InstrClass.instr_cls (c : InstrClass) (w : Word) : (c.instr w).cls = c := by
  cases c <;> rfl

end Sys2Proof
end

