-- ==== Sys2Proof/Laws/State.lean ====
section
/-! SUPPORT. The small lemmas of the state's updates: one per field per update, so that no proof unfolds a record
update; and the register file's read-after-write laws. -/

namespace Sys2Proof.Machine

/-! ## The register file -/

@[simp] theorem RegFile.get_set (x : RegFile) (r q : Reg) (v : Word) :
    (x.set r v).get q = if q = r then v else x.get q := by
  cases r <;> cases q <;> rfl

theorem RegFile.get_set_same (x : RegFile) (r : Reg) (v : Word) : (x.set r v).get r = v := by
  simp

theorem RegFile.get_set_other (x : RegFile) {r q : Reg} (v : Word) (h : q ≠ r) :
    (x.set r v).get q = x.get q := by
  simp [h]

/-- Two register files that read alike are equal. -/
theorem RegFile.ext_get {x y : RegFile} (h : ∀ r, x.get r = y.get r) : x = y := by
  cases x
  cases y
  have h0 := h .r0
  have h1 := h .r1
  have h2 := h .r2
  have h3 := h .r3
  have h4 := h .r4
  have h5 := h .r5
  have h6 := h .r6
  have h7 := h .r7
  simp only [RegFile.get] at h0 h1 h2 h3 h4 h5 h6 h7
  simp [*]

/-- Writing back what a register holds changes nothing. -/
@[simp] theorem RegFile.set_get (x : RegFile) (r : Reg) : x.set r (x.get r) = x := by
  cases r <;> rfl

/-! ## setReg -/

@[simp] theorem State.setReg_x (s : State) (r : Reg) (v : Word) : (s.setReg r v).x = s.x.set r v := rfl
@[simp] theorem State.setReg_mem (s : State) (r : Reg) (v : Word) : (s.setReg r v).mem = s.mem := rfl
@[simp] theorem State.setReg_phase (s : State) (r : Reg) (v : Word) : (s.setReg r v).phase = s.phase := rfl
@[simp] theorem State.setReg_touched (s : State) (r : Reg) (v : Word) :
    (s.setReg r v).touched = s.touched := rfl
@[simp] theorem State.setReg_policy (s : State) (r : Reg) (v : Word) :
    (s.setReg r v).policy = s.policy := rfl
@[simp] theorem State.setReg_events (s : State) (r : Reg) (v : Word) :
    (s.setReg r v).events = s.events ++ [.register r (s.reg r) v] := rfl
@[simp] theorem State.setReg_word (s : State) (r : Reg) (v : Word) (a : Word) :
    (s.setReg r v).word a = s.word a := rfl
@[simp] theorem State.setReg_materialised (s : State) (r : Reg) (v : Word) (a : Word) :
    (s.setReg r v).materialised a = s.materialised a := rfl
@[simp] theorem State.setReg_reg (s : State) (r q : Reg) (v : Word) :
    (s.setReg r v).reg q = if q = r then v else s.reg q := by
  simp [State.reg]

/-! ## emit -/

@[simp] theorem State.emit_x (s : State) (e : Event) : (s.emit e).x = s.x := rfl
@[simp] theorem State.emit_mem (s : State) (e : Event) : (s.emit e).mem = s.mem := rfl
@[simp] theorem State.emit_phase (s : State) (e : Event) : (s.emit e).phase = s.phase := rfl
@[simp] theorem State.emit_touched (s : State) (e : Event) : (s.emit e).touched = s.touched := rfl
@[simp] theorem State.emit_policy (s : State) (e : Event) : (s.emit e).policy = s.policy := rfl
@[simp] theorem State.emit_events (s : State) (e : Event) : (s.emit e).events = s.events ++ [e] := rfl
@[simp] theorem State.emit_reg (s : State) (e : Event) (r : Reg) : (s.emit e).reg r = s.reg r := rfl
@[simp] theorem State.emit_word (s : State) (e : Event) (a : Word) : (s.emit e).word a = s.word a := rfl
@[simp] theorem State.emit_materialised (s : State) (e : Event) (a : Word) :
    (s.emit e).materialised a = s.materialised a := rfl

/-! ## materialise -/

@[simp] theorem State.materialise_x (s : State) (a : Word) : (s.materialise a).x = s.x := rfl
@[simp] theorem State.materialise_mem (s : State) (a : Word) : (s.materialise a).mem = s.mem := rfl
@[simp] theorem State.materialise_phase (s : State) (a : Word) : (s.materialise a).phase = s.phase := rfl
@[simp] theorem State.materialise_touched (s : State) (a : Word) :
    (s.materialise a).touched = touch s.touched a.toNat := rfl
@[simp] theorem State.materialise_policy (s : State) (a : Word) : (s.materialise a).policy = s.policy := rfl
@[simp] theorem State.materialise_events (s : State) (a : Word) : (s.materialise a).events = s.events := rfl
@[simp] theorem State.materialise_reg (s : State) (a : Word) (r : Reg) :
    (s.materialise a).reg r = s.reg r := rfl
@[simp] theorem State.materialise_word (s : State) (a b : Word) : (s.materialise a).word b = s.word b := rfl

@[simp] theorem State.memRead_fst (s : State) (a : Word) : (s.memRead a).1 = s.word a := rfl
@[simp] theorem State.memRead_snd (s : State) (a : Word) : (s.memRead a).2 = s.materialise a := rfl

/-! ## memWrite -/

@[simp] theorem State.memWrite_x (s : State) (a v : Word) : (s.memWrite a v).x = s.x := rfl
@[simp] theorem State.memWrite_mem (s : State) (a v : Word) :
    (s.memWrite a v).mem = s.mem.write s.policy a.toNat v := rfl
@[simp] theorem State.memWrite_phase (s : State) (a v : Word) : (s.memWrite a v).phase = s.phase := rfl
@[simp] theorem State.memWrite_touched (s : State) (a v : Word) :
    (s.memWrite a v).touched = touch s.touched a.toNat := rfl
@[simp] theorem State.memWrite_policy (s : State) (a v : Word) : (s.memWrite a v).policy = s.policy := rfl
@[simp] theorem State.memWrite_events (s : State) (a v : Word) :
    (s.memWrite a v).events = s.events ++ [.memory a (s.oldWord a) v] := rfl
@[simp] theorem State.memWrite_reg (s : State) (a v : Word) (r : Reg) :
    (s.memWrite a v).reg r = s.reg r := rfl

/-! ## quiet, enterPhase, placeFetchWord -/

@[simp] theorem State.quiet_x (s : State) : s.quiet.x = s.x := rfl
@[simp] theorem State.quiet_mem (s : State) : s.quiet.mem = s.mem := rfl
@[simp] theorem State.quiet_phase (s : State) : s.quiet.phase = s.phase := rfl
@[simp] theorem State.quiet_touched (s : State) : s.quiet.touched = s.touched := rfl
@[simp] theorem State.quiet_policy (s : State) : s.quiet.policy = s.policy := rfl
@[simp] theorem State.quiet_events (s : State) : s.quiet.events = [] := rfl
@[simp] theorem State.quiet_reg (s : State) (r : Reg) : s.quiet.reg r = s.reg r := rfl
@[simp] theorem State.quiet_word (s : State) (a : Word) : s.quiet.word a = s.word a := rfl
@[simp] theorem State.quiet_materialised (s : State) (a : Word) :
    s.quiet.materialised a = s.materialised a := rfl

@[simp] theorem enterPhase_x (s : State) : (enterPhase s).x = s.x := rfl
@[simp] theorem enterPhase_mem (s : State) : (enterPhase s).mem = s.mem := rfl
@[simp] theorem enterPhase_phase (s : State) : (enterPhase s).phase = s.phase.succ := rfl
@[simp] theorem enterPhase_touched (s : State) : (enterPhase s).touched = s.touched := rfl
@[simp] theorem enterPhase_policy (s : State) : (enterPhase s).policy = s.policy := rfl
@[simp] theorem enterPhase_events (s : State) : (enterPhase s).events = [] := rfl
@[simp] theorem enterPhase_reg (s : State) (r : Reg) : (enterPhase s).reg r = s.reg r := rfl
@[simp] theorem enterPhase_word (s : State) (a : Word) : (enterPhase s).word a = s.word a := rfl
@[simp] theorem enterPhase_materialised (s : State) (a : Word) :
    (enterPhase s).materialised a = s.materialised a := rfl

@[simp] theorem placeFetchWord_x (s : State) (n w : Nat) :
    (placeFetchWord s n w).x = s.x.set .r1 (tableWord n w) := rfl
@[simp] theorem placeFetchWord_mem (s : State) (n w : Nat) : (placeFetchWord s n w).mem = s.mem := rfl
@[simp] theorem placeFetchWord_phase (s : State) (n w : Nat) : (placeFetchWord s n w).phase = .advance := rfl
@[simp] theorem placeFetchWord_touched (s : State) (n w : Nat) :
    (placeFetchWord s n w).touched = s.touched := rfl
@[simp] theorem placeFetchWord_policy (s : State) (n w : Nat) : (placeFetchWord s n w).policy = s.policy := rfl
@[simp] theorem placeFetchWord_events (s : State) (n w : Nat) : (placeFetchWord s n w).events = s.events := rfl

/-! ## construct -/

@[simp] theorem State.construct_mem (p : InitPolicy) : (State.construct p).mem = [] := rfl
@[simp] theorem State.construct_phase (p : InitPolicy) : (State.construct p).phase = .execute := rfl
@[simp] theorem State.construct_touched (p : InitPolicy) : (State.construct p).touched = [] := rfl
@[simp] theorem State.construct_policy (p : InitPolicy) : (State.construct p).policy = p := rfl
@[simp] theorem State.construct_events (p : InitPolicy) : (State.construct p).events = [] := rfl
@[simp] theorem State.construct_r0 (p : InitPolicy) : (State.construct p).reg .r0 = 0 := rfl

end Sys2Proof.Machine
end

