-- ==== Sys2Proof/Laws/Memory.lean ====
section
/-! SUPPORT. What memory operations do (20_memory.md R45, R46), and that each keeps the canonical form. -/

namespace Sys2Proof.Machine

/-! ## Reading after writing -/

theorem Memory.read_insert (p : InitPolicy) (m : Memory) (a b : Nat) (v : Word) :
    (m.insert a v).read p b = if b = a then v else m.read p b := by
  induction m with
  | nil => simp [Memory.insert, Memory.read]
  | cons c rest ih =>
    obtain ⟨k, u⟩ := c
    by_cases hk : a < k
    · simp [Memory.insert, Memory.read, hk]
    · by_cases he : a = k
      · subst he
        by_cases hb : b = a <;> simp [Memory.insert, Memory.read, hb]
      · by_cases hb : b = k
        · have hne : k ≠ a := fun h => he h.symm
          subst hb
          simp [Memory.insert, Memory.read, hk, he, hne]
        · simp [Memory.insert, Memory.read, hk, he, hb, ih]

theorem Memory.read_erase (p : InitPolicy) (m : Memory) (a b : Nat) :
    (m.erase a).read p b = if b = a then initialWord p a else m.read p b := by
  induction m with
  | nil =>
    by_cases hb : b = a
    · subst hb; simp [Memory.erase, Memory.read]
    · simp [Memory.erase, Memory.read, hb]
  | cons c rest ih =>
    obtain ⟨k, u⟩ := c
    unfold Memory.erase at ih ⊢
    by_cases hk : k = a
    · subst hk
      by_cases hb : b = k
      · subst hb
        simpa using ih
      · simpa [hb, Memory.read] using ih
    · by_cases hb : b = k
      · subst hb
        simp [hk, Memory.read]
      · simp [hk, hb, Memory.read, ih]

/-- A write is read back at its address, and changes no other address. -/
theorem Memory.read_write (p : InitPolicy) (m : Memory) (a b : Nat) (v : Word) :
    (m.write p a v).read p b = if b = a then v else m.read p b := by
  unfold Memory.write
  by_cases h : v = initialWord p a
  · simp [h, Memory.read_erase]
  · simp [h, Memory.read_insert]

@[simp] theorem State.memWrite_word (s : State) (a b v : Word) :
    (s.memWrite a v).word b = if b = a then v else s.word b := by
  simp only [State.word, State.memWrite_mem, State.memWrite_policy, Memory.read_write]
  by_cases h : b = a
  · simp [h]
  · have : b.toNat ≠ a.toNat := fun e => h (BitVec.eq_of_toNat_eq e)
    simp [h, this]

/-! ## The materialised set -/

@[simp] theorem mem_touch (l : List Nat) (a b : Nat) : b ∈ touch l a ↔ b = a ∨ b ∈ l := by
  induction l with
  | nil => simp [touch]
  | cons c rest ih =>
    by_cases hk : a < c
    · simp [touch, hk]
    · by_cases he : a = c
      · subst he; simp [touch]
      · simp [touch, hk, he, ih]
        tauto

theorem touch_rising (l : List Nat) (a : Nat) (h : l.Pairwise (· < ·)) : (touch l a).Pairwise (· < ·) := by
  induction l with
  | nil => simp [touch]
  | cons c rest ih =>
    rw [List.pairwise_cons] at h
    by_cases hk : a < c
    · simp only [touch, hk, if_true, List.pairwise_cons]
      refine ⟨?_, h⟩
      intro d hd
      rcases List.mem_cons.1 hd with rfl | hd
      · exact hk
      · exact lt_trans hk (h.1 d hd)
    · by_cases he : a = c
      · subst he
        simpa [touch, List.pairwise_cons] using h
      · simp only [touch, hk, he, if_false, List.pairwise_cons]
        refine ⟨?_, ih h.2⟩
        intro d hd
        rcases (mem_touch rest a d).1 hd with rfl | hd
        · omega
        · exact h.1 d hd

theorem State.materialised_materialise (s : State) (a b : Word) :
    (s.materialise a).materialised b = true ↔ b = a ∨ s.materialised b = true := by
  simp [State.materialised, BitVec.toNat_inj]

theorem State.materialised_memWrite (s : State) (a v b : Word) :
    (s.memWrite a v).materialised b = true ↔ b = a ∨ s.materialised b = true := by
  simp [State.materialised, BitVec.toNat_inj]

/-! ## The canonical form is kept -/

theorem Memory.mem_insert (m : Memory) (a : Nat) (v : Word) (c : Nat × Word)
    (h : c ∈ m.insert a v) : c = (a, v) ∨ c ∈ m := by
  induction m with
  | nil => simpa [Memory.insert] using h
  | cons d rest ih =>
    obtain ⟨k, u⟩ := d
    by_cases hk : a < k
    · simpa [Memory.insert, hk] using h
    · by_cases he : a = k
      · subst he
        rcases (by simpa [Memory.insert] using h : c = (a, v) ∨ c ∈ rest) with rfl | hc
        · exact .inl rfl
        · exact .inr (List.mem_cons_of_mem _ hc)
      · rcases (by simpa [Memory.insert, hk, he] using h : c = (k, u) ∨ c ∈ Memory.insert rest a v)
          with rfl | hc
        · simp
        · rcases ih hc with rfl | hc
          · exact .inl rfl
          · exact .inr (List.mem_cons_of_mem _ hc)

theorem Memory.insert_rising (m : Memory) (a : Nat) (v : Word)
    (h : (m.map Prod.fst).Pairwise (· < ·)) : ((m.insert a v).map Prod.fst).Pairwise (· < ·) := by
  induction m with
  | nil => simp [Memory.insert]
  | cons d rest ih =>
    obtain ⟨k, u⟩ := d
    rw [List.map_cons, List.pairwise_cons] at h
    by_cases hk : a < k
    · simp only [Memory.insert, hk, if_true, List.map_cons, List.pairwise_cons]
      refine ⟨?_, h.1, h.2⟩
      intro d hd
      rcases List.mem_cons.1 hd with rfl | hd
      · exact hk
      · exact lt_trans hk (h.1 d hd)
    · by_cases he : a = k
      · subst he
        simpa [Memory.insert, List.pairwise_cons] using h
      · simp only [Memory.insert, hk, he, if_false, List.map_cons, List.pairwise_cons]
        refine ⟨?_, ih h.2⟩
        intro d hd
        obtain ⟨c, hc, rfl⟩ := List.mem_map.1 hd
        rcases Memory.mem_insert rest a v c hc with rfl | hc
        · show k < a
          omega
        · exact h.1 _ (List.mem_map_of_mem hc)

theorem Memory.wf_iff (p : InitPolicy) (m : Memory) :
    m.wf p = true ↔
      (m.map Prod.fst).Pairwise (· < ·) ∧ ∀ c ∈ m, c.1 < 65536 ∧ c.2 ≠ initialWord p c.1 := by
  simp [Memory.wf]

theorem Memory.wf_nil (p : InitPolicy) : Memory.wf p [] = true := rfl

/-- A write within the address space keeps the canonical form. -/
theorem Memory.wf_write (p : InitPolicy) (m : Memory) (a : Nat) (v : Word) (ha : a < 65536)
    (h : m.wf p = true) : (m.write p a v).wf p = true := by
  rw [Memory.wf_iff] at h ⊢
  unfold Memory.write
  by_cases hv : v = initialWord p a
  · rw [if_pos hv]
    refine ⟨?_, fun c hc => h.2 c (List.mem_of_mem_filter hc)⟩
    exact h.1.sublist (List.Sublist.map _ List.filter_sublist)
  · rw [if_neg hv]
    refine ⟨Memory.insert_rising m a v h.1, fun c hc => ?_⟩
    rcases Memory.mem_insert m a v c hc with rfl | hc
    · exact ⟨ha, hv⟩
    · exact h.2 c hc

/-- Where a written memory lists a cell: the written one, or one listed before. -/
theorem Memory.mem_write (p : InitPolicy) (m : Memory) (a : Nat) (v : Word) (c : Nat × Word)
    (h : c ∈ m.write p a v) : c = (a, v) ∨ c ∈ m := by
  unfold Memory.write at h
  by_cases hv : v = initialWord p a
  · rw [if_pos hv] at h
    exact .inr (List.mem_of_mem_filter h)
  · rw [if_neg hv] at h
    exact Memory.mem_insert m a v c h

/-! ## Soundness of the state's representation under each operation -/

theorem State.wf_iff (s : State) :
    s.wf = true ↔
      s.mem.wf s.policy = true ∧ s.touched.Pairwise (· < ·) ∧ (∀ a ∈ s.touched, a < 65536) ∧
        ∀ c ∈ s.mem, c.1 ∈ s.touched := by
  simp [State.wf, and_assoc]

/-- Soundness reads only memory, the policy and the materialised set. -/
theorem State.wf_congr {s t : State} (hm : t.mem = s.mem) (hp : t.policy = s.policy)
    (ht : t.touched = s.touched) (h : s.wf = true) : t.wf = true := by
  rw [State.wf_iff] at h ⊢
  rw [hm, hp, ht]
  exact h

@[simp] theorem State.setReg_wf (s : State) (r : Reg) (v : Word) (h : s.wf = true) :
    (s.setReg r v).wf = true := State.wf_congr rfl rfl rfl h

@[simp] theorem State.emit_wf (s : State) (e : Event) (h : s.wf = true) : (s.emit e).wf = true :=
  State.wf_congr rfl rfl rfl h

@[simp] theorem State.quiet_wf (s : State) (h : s.wf = true) : s.quiet.wf = true :=
  State.wf_congr rfl rfl rfl h

@[simp] theorem enterPhase_wf (s : State) (h : s.wf = true) : (enterPhase s).wf = true :=
  State.wf_congr rfl rfl rfl h

theorem State.materialise_wf (s : State) (a : Word) (h : s.wf = true) : (s.materialise a).wf = true := by
  rw [State.wf_iff] at h ⊢
  obtain ⟨hm, hr, hb, hl⟩ := h
  refine ⟨hm, touch_rising _ _ hr, fun b hb' => ?_, fun c hc => ?_⟩
  · rcases (mem_touch _ _ _).1 hb' with rfl | hb'
    · exact a.isLt
    · exact hb b hb'
  · exact (mem_touch _ _ _).2 (.inr (hl c hc))

theorem State.memWrite_wf (s : State) (a v : Word) (h : s.wf = true) : (s.memWrite a v).wf = true := by
  rw [State.wf_iff] at h ⊢
  obtain ⟨hm, hr, hb, hl⟩ := h
  refine ⟨Memory.wf_write _ _ _ _ a.isLt hm, touch_rising _ _ hr, fun b hb' => ?_, fun c hc => ?_⟩
  · rcases (mem_touch _ _ _).1 hb' with rfl | hb'
    · exact a.isLt
    · exact hb b hb'
  · rcases Memory.mem_write _ _ _ _ _ hc with rfl | hc
    · exact (mem_touch _ _ _).2 (.inl rfl)
    · exact (mem_touch _ _ _).2 (.inr (hl c hc))

end Sys2Proof.Machine
end

