-- ==== Sys2Proof/Laws/Operands.lean ====
section
/-! SUPPORT. The bytes of a word, and the numbers of texts. -/

namespace Sys2Proof.Machine

theorem getLsbD_joinBytes (hi lo : BitVec 8) (i : Nat) :
    (joinBytes hi lo).getLsbD i = if i < 8 then lo.getLsbD i else hi.getLsbD (i - 8) :=
  BitVec.getLsbD_append

@[simp] theorem highByte_joinBytes (hi lo : BitVec 8) : highByte (joinBytes hi lo) = hi := by
  apply BitVec.eq_of_getLsbD_eq
  intro i h
  simp only [highByte, BitVec.getLsbD_extractLsb', getLsbD_joinBytes]
  simp [h]

@[simp] theorem lowByte_joinBytes (hi lo : BitVec 8) : lowByte (joinBytes hi lo) = lo := by
  apply BitVec.eq_of_getLsbD_eq
  intro i h
  simp only [lowByte, BitVec.getLsbD_extractLsb', getLsbD_joinBytes]
  simp [h]

@[simp] theorem joinBytes_high_low (w : Word) : joinBytes (highByte w) (lowByte w) = w := by
  apply BitVec.eq_of_getLsbD_eq
  intro i h
  rw [getLsbD_joinBytes]
  by_cases h8 : i < 8
  · simp [lowByte, h8]
  · simp only [highByte, if_neg h8, BitVec.getLsbD_extractLsb']
    simp [show i - 8 < 8 by omega, show 8 + (i - 8) = i by omega]

/-! ## The text form -/

@[simp] theorem textOf_length {n : Nat} (v : BitVec n) : (textOf v).length = n := by
  simp [textOf]

theorem textOf_getElem? {n : Nat} (v : BitVec n) (k : Nat) (h : k < n) :
    (textOf v)[k]? = some (if v.getLsbD (n - 1 - k) then '1' else '0') := by
  simp [textOf, h]

theorem textOf_getElem {n : Nat} (v : BitVec n) (k : Nat) (h : k < (textOf v).length) :
    (textOf v)[k] = if v.getLsbD (n - 1 - k) then '1' else '0' := by
  have h' : k < n := by simpa using h
  have := textOf_getElem? v k h'
  rw [List.getElem?_eq_getElem h] at this
  exact Option.some.inj this

/-- A text form holds binary characters only. -/
theorem mem_textOf {n : Nat} (v : BitVec n) : ∀ c ∈ textOf v, c = '0' ∨ c = '1' := by
  intro c hc
  simp only [textOf, List.mem_map] at hc
  obtain ⟨k, -, rfl⟩ := hc
  split <;> simp

/-- The value of `n + 1` bits, by the top bit. -/
theorem toNat_top {n : Nat} (v : BitVec (n + 1)) :
    v.toNat = (v.getLsbD n).toNat * 2 ^ n + (v.setWidth n).toNat := by
  have hlt := v.isLt
  have hq : v.toNat / 2 ^ n < 2 := by
    rw [Nat.div_lt_iff_lt_mul (by positivity), Nat.mul_comm, ← pow_succ]
    exact hlt
  have hb : (v.getLsbD n).toNat = v.toNat / 2 ^ n := by
    rw [show v.getLsbD n = v.toNat.testBit n from rfl, Nat.testBit_eq_decide_div_mod_eq]
    generalize v.toNat / 2 ^ n = q at hq ⊢
    rcases (by omega : q = 0 ∨ q = 1) with h | h <;> simp [h]
  rw [hb, BitVec.toNat_setWidth, Nat.mul_comm]
  exact (Nat.div_add_mod _ _).symm

end Sys2Proof.Machine
end

