-- ==== Sys2Proof/Laws/PerInstr.lean ====
section
/-! SUPPORT. Statements about every instruction as syntax, one lemma per constructor. -/

namespace Sys2Proof.Laws

/-- The encoder writes 0 in every wildcard position of the instruction's class (30_encoding.md R71, R85). -/
def EncodingIsCanonical.Statement (i : Instr) : Prop :=
  i.cls.canonical (encode i) = true

theorem EncodingIsCanonical.store : EncodingIsCanonical.Statement .store := by
  unfold EncodingIsCanonical.Statement
  decide

theorem EncodingIsCanonical.load : EncodingIsCanonical.Statement .load := by
  unfold EncodingIsCanonical.Statement
  decide

theorem EncodingIsCanonical.setLowBits (imm : BitVec 8) : EncodingIsCanonical.Statement (.setLowBits imm) := by
  revert imm
  unfold EncodingIsCanonical.Statement
  decide

theorem EncodingIsCanonical.setTopBits (imm : BitVec 8) : EncodingIsCanonical.Statement (.setTopBits imm) := by
  revert imm
  unfold EncodingIsCanonical.Statement
  decide

theorem EncodingIsCanonical.copy (t s : Reg) : EncodingIsCanonical.Statement (.copy t s) := by
  unfold EncodingIsCanonical.Statement
  cases t <;> cases s <;> decide

theorem EncodingIsCanonical.alu (c : JumpCond) (k : AluControl) (j : Reg) :
    EncodingIsCanonical.Statement (.alu c k j) := by
  simp only [EncodingIsCanonical.Statement, Instr.cls, InstrClass.canonical, InstrClass.wildcards, encode,
    beq_iff_eq]
  apply BitVec.eq_of_getLsbD_eq
  intro i hi
  interval_cases i <;> simp [placeField]

theorem EncodingIsCanonical.pass : EncodingIsCanonical.Statement .pass := by
  unfold EncodingIsCanonical.Statement
  decide

end Sys2Proof.Laws
end

