-- ==== Sys2Proof/Laws/Step.lean ====
section
/-! SUPPORT. What each meaning and each phase answers, as one equation apiece. -/

namespace Sys2Proof.Machine

@[simp] theorem exec_store (s : State) : exec .store s = .next (s.memWrite (s.reg .r5) (s.reg .r7)) := rfl

@[simp] theorem exec_load (s : State) :
    exec .load s = .next ((s.materialise (s.reg .r5)).setReg .r6 (s.word (s.reg .r5))) := rfl

@[simp] theorem exec_setLowBits (imm : BitVec 8) (s : State) :
    exec (.setLowBits imm) s = .next (s.setReg .r7 (joinBytes imm (lowByte (s.reg .r7)))) := rfl

@[simp] theorem exec_setTopBits (imm : BitVec 8) (s : State) :
    exec (.setTopBits imm) s = .next (s.setReg .r7 (joinBytes (highByte (s.reg .r7)) imm)) := rfl

@[simp] theorem exec_copy (t r : Reg) (s : State) :
    exec (.copy t r) s = .next (if t = .r1 then s else s.setReg t (s.reg r)) := rfl

@[simp] theorem exec_alu (c : JumpCond) (k : AluControl) (j : Reg) (s : State) :
    exec (.alu c k j) s =
      .next (if jumpTaken c j (alu k (s.reg .r2) (s.reg .r3)) then
          (s.setReg .r4 (aluOut k (s.reg .r2) (s.reg .r3))).setReg .r0
            ((s.setReg .r4 (aluOut k (s.reg .r2) (s.reg .r3))).reg j)
        else s.setReg .r4 (aluOut k (s.reg .r2) (s.reg .r3))) := rfl

@[simp] theorem exec_pass (s : State) : exec .pass s = .next s := rfl

@[simp] theorem alu_result (k : AluControl) (x y : Word) : (alu k x y).result = aluOut k x y := rfl
@[simp] theorem alu_isNegative (k : AluControl) (x y : Word) :
    (alu k x y).isNegative = isNegative (aluOut k x y) := rfl
@[simp] theorem alu_isZero (k : AluControl) (x y : Word) : (alu k x y).isZero = isZero (aluOut k x y) := rfl

/-- When a jump is taken (R140). -/
theorem jumpTaken_iff (c : JumpCond) (j : Reg) (r : AluResult) :
    jumpTaken c j r = true ↔ j ≠ .r0 ∧ c.onZero = r.isZero ∧ c.onNegative = r.isNegative := by
  simp [jumpTaken, and_assoc]

/-- The incremented pc, as bit-vector addition. -/
theorem increment_eq (w : Word) : BitVec.ofNat 16 (uint w + 1) = w + 1 := by
  apply BitVec.eq_of_toNat_eq
  simp [uint, BitVec.toNat_add]

@[simp] theorem fetch_eq (s : State) :
    fetch s = (s.materialise (s.reg .r0)).setReg .r1 (s.word (s.reg .r0)) := rfl

@[simp] theorem advance_eq (s : State) : advance s = s.setReg .r0 (s.reg .r0 + 1) := by
  simp [advance, increment_eq]

/-- The tick into phase 0. -/
theorem step_into_fetch (s : State) (h : s.phase = .execute) :
    step s = .next ((fetch (enterPhase s)).emit (.tick .fetch)) := by
  simp [step, tick, finishTick, phaseAction, Phase.succ, h]

/-- The tick into phase 1. -/
theorem step_into_advance (s : State) (h : s.phase = .fetch) :
    step s = .next ((advance (enterPhase s)).emit (.tick .advance)) := by
  simp [step, tick, finishTick, phaseAction, Phase.succ, h]

/-- The tick into phase 2 is the execute phase, then the tick notification. -/
theorem step_into_execute (s : State) (h : s.phase = .advance) :
    step s = finishTick (execute (enterPhase s)) := by
  simp [step, tick, phaseAction, Phase.succ, h]

end Sys2Proof.Machine
end

