-- ==== Sys2Proof/Tests/Slice0.lean ====
section
/-! SUPPORT. Tests. Expected values are those of 95_test_vectors.md (the vector is named at each test), or are worked by
hand from the rule named. After the tests stand the witnesses: for every statement with hypotheses, concrete states
and operands that meet them. -/

namespace Sys2Proof.Tests

open Sys2Proof Sys2Proof.Machine

/-! ## Helpers -/

/-- The base state of 95_test_vectors.md, about to execute the word `w`. -/
def base (w : Word) : State :=
  { State.reset with x := ⟨0x0011, w, 0x1111, 0x2222, 0x4444, 0x0030, 0x6666, 0x7777⟩, phase := .advance }

/-- The base state with R2 and R3 as given. -/
def baseXY (w x y : Word) : State := ((base w).setReg .r2 x).setReg .r3 y

def nextOf (o : Host.Outcome State Fault Refusal) : Option State :=
  match o with
  | .next t => some t
  | .fault _ => none
  | .refused _ => none

/-- The register file after one tick. -/
def regsAfter (s : State) : Option RegFile := (nextOf (step s)).map fun t => t.x

/-- The word at `a` after one tick. -/
def wordAfter (s : State) (a : Word) : Option Word := (nextOf (step s)).map fun t => t.word a

/-- R4 and R0 after one tick. -/
def aluAfter (w x y : Word) : Option (Word × Word) := (regsAfter (baseXY w x y)).map fun f => (f.r4, f.r0)

/-! ## Smoke: words that are no canonical encoding are refused by the check (R71, R85) -/

theorem smoke_store_wildcard_refused : InstrClass.store.canonical 0b0000000000001000#16 = false := by decide
theorem smoke_load_wildcard_refused : InstrClass.load.canonical 0b1000000000000001#16 = false := by decide
theorem smoke_setLowBits_wildcard_refused : InstrClass.setLowBits.canonical 0b0000100000000010#16 = false := by decide
theorem smoke_setTopBits_wildcard_refused : InstrClass.setTopBits.canonical 0b0000100000000011#16 = false := by decide
theorem smoke_copy_wildcard_refused : InstrClass.copy.canonical 0b0000001000000100#16 = false := by decide
theorem smoke_alu_wildcard_refused : InstrClass.aluOp.canonical 0b0100000000000101#16 = false := by decide
theorem smoke_pass_other_suffix_refused : InstrClass.pass.canonical 0b0000000000000111#16 = false := by decide
theorem smoke_canonical_words_accepted :
    InstrClass.store.canonical 0x0000 = true ∧ InstrClass.load.canonical 0x0001 = true ∧
    InstrClass.setLowBits.canonical 0x055A = true ∧ InstrClass.setTopBits.canonical 0x055B = true ∧
    InstrClass.copy.canonical 0x013C = true ∧ InstrClass.aluOp.canonical 0x14FD = true ∧
    InstrClass.pass.canonical 0x0006 = true := by decide

/-! ## Decoding: words written out from the formats of 30_encoding.md (V-D) -/

theorem test_decode_store : decode 0b0000000000000000#16 = some .store := by decide
theorem test_decode_load : decode 0b0000000000000001#16 = some .load := by decide
theorem test_decode_setLowBits : decode 0b0000010101011010#16 = some (.setLowBits 0b10101011) := by decide
theorem test_decode_setTopBits : decode 0b0000010101011011#16 = some (.setTopBits 0b10101011) := by decide
theorem test_decode_copy : decode 0b0000000100111100#16 = some (.copy .r4 .r7) := by decide
theorem test_decode_alu :
    decode 0b0001010011111101#16 =
      some (.alu ⟨false, true⟩ ⟨false, true, false, false, true, true⟩ .r7) := by decide
theorem test_decode_pass :
    decode 0b0000000000000110#16 = some .pass ∧ decode 0b1111111111111111#16 = some .pass := by decide
theorem test_encode_words :
    encode (.setTopBits 0b11111111) = 0x07FB ∧ encode (.copy .r1 .r7) = 0x007C ∧
    encode (.alu ⟨true, false⟩ ⟨true, false, true, false, true, false⟩ .r7) = 0x2ABD := by decide

/-- The host's reading of a table word: bit 0 of the number is bit 0 of the word, bits above `nbits` are 0. -/
theorem test_decodeTableWord :
    decodeTableWord 16 0x013C = some (.copy .r4 .r7) ∧ decodeTableWord 16 0x14FD =
      some (.alu ⟨false, true⟩ ⟨false, true, false, false, true, true⟩ .r7) ∧
    decodeTableWord 8 0xFF02 = some (.setLowBits 0) := by decide

/-- COPY R4 from R7, placed as the first instruction after reset, runs in the very next step. -/
theorem test_withFetchWord_runs :
    regsAfter (({ State.reset with x := ⟨0, 0, 0, 0, 0, 0, 0, 0x00FF⟩ } : State).withFetchWord 16 0x013C) =
      some ⟨0, 0x013C, 0, 0, 0x00FF, 0, 0, 0x00FF⟩ := by decide

/-! ## The instructions -/

/-- V-M1, V-M3. -/
theorem test_store :
    wordAfter (((base 0x0000).setReg .r5 0x002A).setReg .r7 0x1234) 0x002A = some 0x1234 ∧
    wordAfter (((base 0x0000).setReg .r5 0xFFFF).setReg .r7 0x8000) 0xFFFF = some 0x8000 := by decide

/-- Storing the initial value unlists the cell, so that equal memories are equal lists (R46, log 14). -/
theorem test_store_of_the_initial_value :
    ((nextOf (step ((((base 0x0000).memWrite 0x0030 0x1234)).setReg .r7 0x0000))).map fun t => t.mem) =
      some [] := by decide

/-- V-M2, V-M4. -/
theorem test_load :
    regsAfter ((base 0x0001).memWrite 0x0030 0xBEEF) =
      some ⟨0x0011, 0x0001, 0x1111, 0x2222, 0x4444, 0x0030, 0xBEEF, 0x7777⟩ ∧
    regsAfter ((base 0x0001).setReg .r5 0x0200) =
      some ⟨0x0011, 0x0001, 0x1111, 0x2222, 0x4444, 0x0200, 0x0000, 0x7777⟩ := by decide

/-- V-M5: under Undefined a cell never written reads INIT_MEM, whatever it is. -/
theorem test_load_undefined :
    ((nextOf (step { State.construct .undefined with
        x := ⟨0, 0x0001, 0, 0, 0, 0x0200, 0, 0⟩, phase := .advance })).map fun t => t.reg .r6) =
      some (Config.initMem 0x0200) := rfl

/-- V-S: SETLOWBITS writes the high byte. -/
theorem test_setLowBits :
    regsAfter ((base 0x055A).setReg .r7 0x1234) =
      some ⟨0x0011, 0x055A, 0x1111, 0x2222, 0x4444, 0x0030, 0x6666, 0xAB34⟩ ∧
    regsAfter ((base 0xFC02).setReg .r7 0x0005) =
      some ⟨0x0011, 0xFC02, 0x1111, 0x2222, 0x4444, 0x0030, 0x6666, 0x8005⟩ := by decide

/-- V-S: SETTOPBITS writes the low byte. -/
theorem test_setTopBits :
    regsAfter ((base 0x055B).setReg .r7 0x1234) =
      some ⟨0x0011, 0x055B, 0x1111, 0x2222, 0x4444, 0x0030, 0x6666, 0x12AB⟩ := by decide

/-- V-C1, V-C3, V-C5, V-C8. -/
theorem test_copy :
    regsAfter (base 0x013C) = some ⟨0x0011, 0x013C, 0x1111, 0x2222, 0x7777, 0x0030, 0x6666, 0x7777⟩ ∧
    regsAfter (base 0x003C) = some ⟨0x7777, 0x003C, 0x1111, 0x2222, 0x4444, 0x0030, 0x6666, 0x7777⟩ ∧
    regsAfter (base 0x00CC) = some ⟨0x0011, 0x00CC, 0x1111, 0x00CC, 0x4444, 0x0030, 0x6666, 0x7777⟩ ∧
    regsAfter (base 0xFFF4) = some ⟨0x0011, 0xFFF4, 0x1111, 0x2222, 0x4444, 0x0030, 0x6666, 0x6666⟩ := by decide

/-- V-C2, V-C6, V-C7: no change. -/
theorem test_copy_without_effect :
    regsAfter (base 0x007C) = some (base 0x007C).x ∧ regsAfter (base 0x016C) = some (base 0x016C).x ∧
    regsAfter (base 0x0004) = some (base 0x0004).x := by decide

/-- V-A: the rows that jump (R4, R0). -/
theorem test_alu_jumps :
    aluAfter 0x00BD 0x0005 0x0003 = some (0x0008, 0x7777) ∧ aluAfter 0x14FD 0x0005 0x0009 = some (0xFFFC, 0x7777) ∧
    aluAfter 0x24FD 0x0005 0x0005 = some (0x0000, 0x7777) ∧ aluAfter 0x303D 0x8000 0x8000 = some (0x8000, 0x7777) ∧
    aluAfter 0x20B5 0xFFFF 0x0001 = some (0x0000, 0x6666) ∧ aluAfter 0x00A5 0x0010 0x0020 = some (0x0030, 0x0030) ∧
    aluAfter 0x0FCD 0x1234 0x5678 = some (0x0001, 0x0FCD) := by decide

/-- V-A: the rows that do not jump. -/
theorem test_alu_without_jump :
    aluAfter 0x0085 0x0005 0x0003 = some (0x0008, 0x0011) ∧ aluAfter 0x04FD 0x0005 0x0009 = some (0xFFFC, 0x0011) ∧
    aluAfter 0x203D 0x8000 0x8000 = some (0x8000, 0x0011) ∧ aluAfter 0x2A85 0x1234 0x0000 = some (0x0000, 0x0011) ∧
    aluAfter 0x1095 0x7FFF 0x0001 = some (0x8000, 0x0011) := by decide

/-- V-P. -/
theorem test_pass :
    regsAfter (base 0x0006) = some (base 0x0006).x ∧ regsAfter (base 0x0007) = some (base 0x0007).x ∧
    regsAfter (base 0xFFFE) = some (base 0xFFFE).x := by decide

/-! ## The ALU, the clock and reset -/

/-- W3, W4, W13 and rows of V-L: result, isNegative, isZero. -/
theorem test_alu_corners :
    alu (AluControl.ofBits 0b000000) 0x0000 0xFFFF = ⟨0x0000, false, true⟩ ∧
    alu (AluControl.ofBits 0b000010) 0x0002 0x7FFF = ⟨0x8001, true, false⟩ ∧
    alu (AluControl.ofBits 0b000010) 0x0004 0x7FFF = ⟨0x8003, true, false⟩ ∧
    alu (AluControl.ofBits 0b000010) 0x7FFF 0x0001 = ⟨0x8000, true, true⟩ ∧
    alu (AluControl.ofBits 0b010101) 0x00F0 0x0FF0 = ⟨0x0FF0, false, false⟩ ∧
    alu (AluControl.ofBits 0b010011) 0x0005 0x0009 = ⟨0xFFFC, true, false⟩ := by decide

/-- V-F1, its first two ticks. -/
theorem test_fetch :
    let s : State := (({ State.reset with x := ⟨0, 0, 0, 0, 0, 0, 0, 0x00FF⟩ } : State).memWrite 0x0000 0x013C)
    regsAfter s = some ⟨0, 0x013C, 0, 0, 0, 0, 0, 0x00FF⟩ ∧
    ((nextOf (step s)).map fun t => t.phase) = some .fetch := by decide

/-- V-F2: the pointer wraps. -/
theorem test_advance_wraps :
    regsAfter { State.reset with x := ⟨0xFFFF, 0x0006, 0, 0, 0, 0, 0, 0⟩, phase := .fetch } =
      some ⟨0x0000, 0x0006, 0, 0, 0, 0, 0, 0⟩ := by decide

/-- V-R. -/
theorem test_reset :
    State.reset.x = ⟨0, 0, 0, 0, 0, 0, 0, 0⟩ ∧ State.reset.phase.number = 2 ∧ State.reset.word 0xFFFF = 0 ∧
    State.reset.touched = [] := by decide

/-- R173, R174: the notifications of an ALU-OP that jumps: decode, R4 before R0, tick. -/
theorem test_notification_order :
    ((nextOf (step (baseXY 0x00BD 0x0005 0x0003))).map fun t => t.events) =
      some [.decode 0x00BD .aluOp ["00".toList, "000010".toList, "111".toList],
        .register .r4 0x4444 0x0008, .register .r0 0x0011 0x7777, .tick .execute] := by decide

/-! ## The driver and the assembler -/

/-- W2, W12, R172. -/
theorem test_integer_conversions :
    fromUnsigned 65537 = .ok 0x0001 ∧ fromSigned (-5) = .ok 0x8005 ∧ fromSigned 0 = .ok 0x0000 ∧
    smag 0x8000 = 0 ∧ smag 0x8005 = -5 := by decide

/-- R172: offset 0 is the most significant end. -/
theorem test_partial_write :
    partialWrite 0x1234 0 "10101011".toList = .ok 0xAB34 ∧ partialWrite 0x1234 8 "10101011".toList = .ok 0x12AB ∧
    partialWrite 0x1234 9 "10101011".toList = .error .malformedBitString ∧
    partialWrite 0x1234 0 "1x".toList = .error .malformedBitString := by decide

/-- A symbol reference or a label in braces. -/
def sym (name : String) : Text := leftBrace :: name.toList ++ [rightBrace]

/-- W8 and W8a, with their symbol table. -/
theorem test_assemble_the_source_example :
    assemble [sym "foo" ++ ":01010101".toList, sym "feep" ++ ":11111111".toList, "R2+R3".toList,
        sym "zork" ++ [':'], "COPY 100 111".toList, "SETTOPBITS ".toList ++ sym "feep"] =
      .ok ([("foo".toList, "01010101".toList), ("feep".toList, "11111111".toList),
          ("zork".toList, "0000000000000001".toList)], [0x0085, 0x013C, 0x07FB]) := by decide

/-- W9. -/
theorem test_unresolved_symbol :
    compile ["SETTOPBITS ".toList ++ sym "undefined"] =
      .error (.unresolvedSymbol ("SETTOPBITS ".toList ++ sym "undefined")) := by decide

/-- R88: an unresolvable mnemonic, and a label bound twice. -/
theorem test_assembler_errors :
    compile ["JUMP 000".toList] = .error (.unresolvableMnemonic "JUMP 000".toList) ∧
    compile [sym "a" ++ [':'], sym "a" ++ [':']] = .error (.duplicateLabel (sym "a" ++ [':'])) := by decide

/-! ## Witnesses: the hypotheses of each statement are met -/

theorem witness_DecodeOfEncodeIsIdentity :
    (Instr.alu (JumpCond.ofBits 0b11) (AluControl.ofBits 0b111111) .r7).wellFormed = true ∧
    (Instr.copy .r7 .r0).wellFormed = true := by decide

theorem witness_EncodeOfDecodeClearsWildcards :
    decode 0xFFFF = some .pass ∧ decode 0xFFF4 = some (.copy .r7 .r6) := by decide

/-- One word for each of the seven clauses, every field at a boundary value. -/
theorem witness_DecodedFieldsSitAtTheSpecsBits :
    (0xFFF8 : Word).extractLsb' 0 3 = 0b000#3 ∧ (0xFFF9 : Word).extractLsb' 0 3 = 0b001#3 ∧
    (0x07FA : Word).extractLsb' 0 3 = 0b010#3 ∧ (0x000B : Word).extractLsb' 0 3 = 0b011#3 ∧
    (0x01FC : Word).extractLsb' 0 3 = 0b100#3 ∧ (0xFFFD : Word).extractLsb' 0 3 = 0b101#3 ∧
    (0x0006 : Word).extractLsb' 1 2 = 0b11#2 ∧ (0xFFFF : Word).extractLsb' 1 2 = 0b11#2 := by decide

theorem witness_WildcardBitsReachNoAction :
    decode 0x0007 = some .pass ∧ decode (0x0007 ^^^ (0xFFFF &&& Instr.pass.cls.wildcards)) = some .pass := by decide

theorem witness_StepRunsTheDecodedInstruction :
    (base 0x00BD).phase = .advance ∧
    decode ((base 0x00BD).reg .r1) = some (.alu ⟨false, false⟩ ⟨false, false, false, false, true, false⟩ .r7) ∧
    (Instr.alu ⟨false, false⟩ ⟨false, false, false, false, true, false⟩ .r7).wellFormed = true := by decide

/-- Each of the three phases is entered by a tick. -/
theorem witness_TickAdvancesThePhaseAndActs :
    ((nextOf (step State.reset)).map fun t => t.phase) = some .fetch ∧
    ((nextOf (step { State.reset with phase := .fetch })).map fun t => t.phase) = some .advance ∧
    ((nextOf (step (base 0x0006))).map fun t => t.phase) = some .execute := by decide

theorem witness_FetchLoadsTheInstructionRegister :
    State.reset.phase = .execute ∧ State.reset.unwritten (State.reset.reg .r0) :=
  ⟨rfl, fun _ h => absurd h List.not_mem_nil⟩

theorem witness_AdvanceIncrementsThePointer :
    let s : State := { State.reset with x := ⟨0xFFFF, 0, 0, 0, 0, 0, 0, 0⟩, phase := .fetch }
    s.phase = .fetch ∧ s.reg .r0 = 0xFFFF := by decide

/-- Both cases of the decode count: a tick that enters phase 2, and one that does not. -/
theorem witness_AnInstructionEveryThreeTicks :
    ((nextOf (step (base 0x0006))).map fun t => decide (t.phase = .execute)) = some true ∧
    ((nextOf (step State.reset)).map fun t => decide (t.phase = .execute)) = some false := by decide

theorem witness_CycleRunsTheWordAtThePointer :
    let s : State := { State.reset with x := ⟨0xFFFF, 0, 0, 0, 0, 0, 0, 7⟩, mem := [(0xFFFF, 0x013C)] }
    s.phase = .execute ∧ decode (s.word (s.reg .r0)) = some (.copy .r4 .r7) := by decide

theorem witness_StoreWritesR7ToMemoryAtR5 :
    (0xFFF8 : Word).extractLsb' 0 3 = 0b000#3 ∧
    State.reset.reg .r5 = State.reset.reg .r0 ∧ State.reset.phase = .execute := by decide

theorem witness_LoadReadsMemoryAtR5IntoR6 :
    (0xFFF9 : Word).extractLsb' 0 3 = 0b001#3 ∧ (base 0x0001).unwritten ((base 0x0001).reg .r5) :=
  ⟨by decide, fun _ h => absurd h List.not_mem_nil⟩

theorem witness_SetLowBitsWritesTheHighByteOfR7 : (0xFC02 : Word).extractLsb' 0 3 = 0b010#3 := by decide

theorem witness_SetTopBitsWritesTheLowByteOfR7 : (0x07FB : Word).extractLsb' 0 3 = 0b011#3 := by decide

/-- Target other than R1, target R1, target equal to source, target R0 in the phase before a fetch, and the self-loop of
V-C9. -/
theorem witness_CopyMovesARegisterUnlessTheTargetIsR1 :
    (0xFFF4 : Word).extractLsb' 0 3 = 0b100#3 ∧ (Reg.r4 ≠ Reg.r1 ∧ regOfCode 0b001 = .r1 ∧ regOfCode 0b000 = .r0) ∧
    State.reset.phase = .execute ∧
    (let s : State := { State.reset with x := ⟨0x000C, 0, 0, 0, 0, 0, 0, 0⟩, mem := [(0x000C, 0x000C)] }
     s.phase = .execute ∧ (s.reg .r0).extractLsb' 0 9 = 0x00C#9 ∧ s.word (s.reg .r0) = s.reg .r0) := by decide

/-- Jump taken, jump taken through R4, no jump for the condition, no jump for the register. -/
theorem witness_AluOpWritesR4AndMayJump :
    (Reg.r7 ≠ .r0 ∧ referenceAlu 5 9 false true false false true true = (0xFFFC, true, false)) ∧
    (Reg.r4 ≠ .r0 ∧ referenceAlu 0x10 0x20 false false false false true false = (0x0030, false, false)) ∧
    ¬ (true = false) ∧ ¬ (Reg.r0 ≠ Reg.r0) := by decide

theorem witness_PassChangesNothing :
    (0x0006 : Word).extractLsb' 1 2 = 0b11#2 ∧ (0xFFFF : Word).extractLsb' 1 2 = 0b11#2 := by decide

theorem witness_NoEncodingIsIllegalOrTraps :
    (0x0007 : Word).extractLsb' 1 2 = 0b11#2 ∧ decode 0x0007 = some .pass := by decide

/-- A register changes: R1 in a fetch, R0 in an advance, and in an execute R6 by LOAD, R7 by the immediates, the target
by COPY, R4 and R0 by ALU-OP. -/
theorem witness_EachTickWritesOnlyItsRegisters :
    (regsAfter (State.reset.memWrite 0 1)).map (fun x => x.r1) = some 0x0001 ∧
    (regsAfter { State.reset with phase := .fetch }).map (fun x => x.r0) = some 0x0001 ∧
    (regsAfter (base 0x0001)).map (fun x => x.r6) = some 0x0000 ∧
    (regsAfter (base 0x0002)).map (fun x => x.r7) = some 0x0077 ∧
    (regsAfter (base 0x0003)).map (fun x => x.r7) = some 0x7700 ∧
    (regsAfter (base 0x003C)).map (fun x => x.r0) = some 0x7777 ∧
    (regsAfter (base 0x2ABD)).map (fun x => (x.r4, x.r0)) = some (0x0000, 0x7777) := by decide

theorem witness_OnlyStoreChangesMemory :
    wordAfter (base 0x0000) 0x0030 = some 0x7777 ∧ (base 0x0000).word 0x0030 = 0x0000 := by decide

/-- The clauses: a tick that is no fetch, a tick that is one, a COPY from R1 and a jump through R1. -/
theorem witness_OnlyFetchWritesTheInstructionRegister :
    ((nextOf (step (base 0x0006))).map fun t => t.phase) = some .execute ∧
    ((nextOf (step State.reset)).map fun t => t.phase) = some .fetch ∧
    decode ((base 0x00CC).reg .r1) = some (.copy .r3 .r1) ∧
    decode ((base 0x0FCD).reg .r1) = some (.alu ⟨false, false⟩ (AluControl.ofBits 0b111111) .r1) ∧
    jumpTaken ⟨false, false⟩ .r1 (alu (AluControl.ofBits 0b111111) 0x1111 0x2222) = true := by decide

/-- Both cases: R5 the address in R0, and not. -/
theorem witness_StoreIsSeenByTheNextFetch :
    (base 0x0000).phase = .advance ∧ decode ((base 0x0000).reg .r1) = some .store ∧
    ((base 0x0000).setReg .r5 0x0011).reg .r5 = ((base 0x0000).setReg .r5 0x0011).reg .r0 ∧
    (base 0x0000).reg .r5 ≠ (base 0x0000).reg .r0 := by decide

/-- Every case of the port: fetch, advance, LOAD, STORE, another instruction. -/
theorem witness_ThePortShowsEveryAccess :
    portUse State.reset = .read 0x0000 ∧ portUse { State.reset with phase := .fetch } = .idle ∧
    portUse (base 0x0001) = .read 0x0030 ∧ portUse (base 0x0000) = .write 0x0030 0x7777 ∧
    portUse (base 0x0006) = .idle := by decide

/-- Two states that differ in the materialised cells and the notifications, and in nothing a program sees. -/
theorem witness_MaterialisationIsUnobservable :
    State.reset.sameToPrograms (State.reset.materialise 0x0010) ∧
    State.reset ≠ State.reset.materialise 0x0010 := ⟨⟨rfl, rfl, fun _ => rfl⟩, by decide⟩

theorem witness_EveryTickKeepsTheStateSound :
    (base 0x0000).wf = true ∧ (nextOf (step (base 0x0000))).isSome = true := by decide

theorem witness_EveryDriverOperationKeepsTheStateSound :
    ((base 0x0000).memWrite 0xFFFF 1).wf = true ∧
    (nextOf (drive (.writeRange (.cell 0xFFFF) 15 ['0']) ((base 0x0000).memWrite 0xFFFF 1))).isSome = true := by decide

theorem witness_MaterialisedCellsStayMaterialised :
    (State.reset.materialise 0xFFFF).materialised 0xFFFF = true ∧
    (nextOf (step (State.reset.materialise 0xFFFF))).isSome = true := by decide

/-- A result in each of the four classes, at its boundaries, with a jump register that is not R0. -/
theorem witness_ExactlyOneConditionJumps :
    Reg.r7 ≠ .r0 ∧ (alu (AluControl.ofBits 0b111111) 0 0).result = 0x0001 ∧
    (alu (AluControl.ofBits 0b000000) 0x7FFF 0x7FFF).result = 0x7FFF ∧
    (alu (AluControl.ofBits 0b000000) 0x8001 0x8001).result = 0x8001 ∧
    (alu (AluControl.ofBits 0b000000) 0xFFFF 0xFFFF).result = 0xFFFF ∧
    (alu (AluControl.ofBits 0b101010) 0 0).result = 0x0000 ∧
    (alu (AluControl.ofBits 0b000000) 0x8000 0x8000).result = 0x8000 := by decide

theorem witness_WriteThenReadGivesTheWordWritten : (0xFFFF : Word) ≠ 0x0000 := by decide

theorem witness_ReadsAreStableAndMaterialise : (base 0x0001).unwritten 0xFFFF :=
  fun _ h => absurd h List.not_mem_nil

theorem witness_ConstructionLeavesTheResetValues :
    InitPolicy.undefined ≠ .zero ∧ InitPolicy.random ≠ .zero ∧ Reg.r1 ≠ .r0 ∧ Reg.r7 ≠ .r0 := by decide

theorem witness_TheFirstInstructionIsTheWordAtAddressZero : Reg.r2 ≠ .r0 ∧ Reg.r2 ≠ .r1 := by decide

/-- An image of two lines: a line of it, and the first address past it. -/
theorem witness_BootLoadsTheImageFromAddressZero :
    ([0x0002, 0x0153] : List Word).length ≤ 65536 ∧ 1 < ([0x0002, 0x0153] : List Word).length ∧
    ([0x0002, 0x0153] : List Word).length ≤ uint 0x0002 := by decide

theorem witness_TicksEmitTheSpecsNotifications :
    ((nextOf (step State.reset)).map fun t => t.phase) = some .fetch ∧
    ((nextOf (step { State.reset with phase := .fetch })).map fun t => t.phase) = some .advance ∧
    ((nextOf (step (base 0x00BD))).map fun t => t.phase) = some .execute := by decide

theorem witness_TextFormIsLossless : wordOfText "1000000000000001".toList = .ok 0x8001 := by decide

theorem witness_SignMagnitudeView : smag 0xFFFF < 0 ∧ smag 0x8001 < 0 := by decide

/-- Each range at its boundary values. -/
theorem witness_DriverIntegerConversions :
    (32767 : Int).natAbs ≤ 32767 ∧ (-32767 : Int).natAbs ≤ 32767 ∧ 32767 < (32768 : Int).natAbs ∧
    32767 < (-32768 : Int).natAbs ∧ (-1 : Int) < 0 := by decide

/-- Runs that end at the bound, one that passes it, and one with another character. -/
theorem witness_PartialWritesPatchTheTextForm :
    writable 15 ['1'] ∧ writable 16 [] ∧ ¬ writable 16 ['1'] ∧ ¬ writable 0 ['x'] ∧
    Target.register .r2 ≠ .register .r3 ∧ Target.cell 0 ≠ .cell 1 := by
  simp [writable]

/-- Every form of the argument, and both ways a text can be bad. -/
theorem witness_DriverWritesStoreTheResolvedWord :
    (WordArg.bits 0xFFFF).resolve = .ok 0xFFFF ∧ (WordArg.text "1000000000000001".toList).resolve = .ok 0x8001 ∧
    (WordArg.unsigned 65537).resolve = .ok 0x0001 ∧ (WordArg.signed (-1)).resolve = .ok 0x8001 ∧
    ['1'].length ≠ 16 ∧ (∃ c ∈ ['x'], c ≠ '0' ∧ c ≠ '1') ∧ Reg.r0 ≠ .r1 :=
  ⟨by decide, by decide, by decide, by decide, by decide, ⟨'x', by decide⟩, by decide⟩

/-- Each of the three phases. -/
theorem witness_TheNextTickSeesTheDriversWrite :
    (base 0x0000).phase = .advance ∧ State.reset.phase = .execute ∧
    ({ State.reset with phase := .fetch } : State).phase = .fetch := by decide

theorem witness_AluComputesTheSpecsTable :
    (aluRows.map Prod.fst).head? = some 0b000000 ∧ (aluRows.map Prod.fst).getLast? = some 0b111111 := by decide

/-- R2−R3 for 5 and 9 (V-L), through its alias. -/
theorem witness_AliasesComputeWhatTheyName :
    assembleLine "R2-R3".toList = .ok 0x04C5 ∧ aluOut (AluControl.ofBits 0b010011) 0x0005 0x0009 = 0x0005 - 0x0009 := by
  decide

/-- A compile that fails, and one that succeeds. -/
theorem witness_CompileGivesWholeWordsOrNothing :
    compile ["HALT".toList] = .error (.unresolvableMnemonic "HALT".toList) ∧
    compile ["PASS".toList] = .ok ["0000000000000110".toList] := by decide

end Sys2Proof.Tests
end

/-! PROOFS. The text form of bits and its number, at every width (00_scope.md R7). A text form is taken apart at its most
significant character, as `numberOfText` reads it. -/

namespace Sys2Proof.Proofs.TextForm

open Sys2Proof Sys2Proof.Machine

/-! ## The weights of the bits -/

/-- Bit i weighs 2^i. -/
theorem toNat_eq_sum_getLsbD {n : Nat} (v : BitVec n) :
    v.toNat = ∑ i ∈ Finset.range n, (v.getLsbD i).toNat * 2 ^ i := by
  induction n with
  | zero => simp [BitVec.of_length_zero]
  | succ n ih =>
    have hlow : ∑ i ∈ Finset.range n, (v.getLsbD i).toNat * 2 ^ i = (v.setWidth n).toNat := by
      rw [ih]
      refine Finset.sum_congr rfl fun i hi => ?_
      simp [Finset.mem_range.mp hi]
    rw [Finset.sum_range_succ, hlow, toNat_top v, Nat.add_comm]

/-! ## The text form, character by character -/

/-- The character of a bit. -/
def charOfBit (b : Bool) : Char := if b then '1' else '0'

@[simp] theorem bitOfChar_charOfBit (b : Bool) : bitOfChar (charOfBit b) = some b := by
  cases b <;> rfl

theorem bitOfChar_eq_some_iff (c : Char) (b : Bool) : bitOfChar c = some b ↔ c = charOfBit b := by
  constructor
  · unfold bitOfChar
    split_ifs with h0 h1
    · rintro ⟨⟩; exact h0
    · rintro ⟨⟩; exact h1
    · rintro ⟨⟩
  · rintro rfl; exact bitOfChar_charOfBit b

@[simp] theorem textOf_width_zero (v : BitVec 0) : textOf v = [] := rfl

/-- The first character is the top bit, and the rest is the text form of the other bits. -/
theorem textOf_width_succ {n : Nat} (v : BitVec (n + 1)) :
    textOf v = charOfBit (v.getLsbD n) :: textOf (v.setWidth n) := by
  have hrest : ∀ k ∈ (List.range n).reverse,
      (if v.getLsbD k then '1' else '0') = if (v.setWidth n).getLsbD k then '1' else '0' := by
    intro k hk
    have hk' : k < n := by simpa using hk
    simp [hk']
  simp only [textOf, List.range_succ, List.reverse_append, List.reverse_singleton, List.singleton_append,
    List.map_cons, charOfBit, List.map_congr_left hrest]

theorem textOf_cons {n : Nat} (b : Bool) (v : BitVec n) : textOf (BitVec.cons b v) = charOfBit b :: textOf v := by
  rw [textOf_width_succ, BitVec.setWidth_cons, BitVec.getLsbD_cons, if_pos rfl]

/-! ## Reading a text -/

theorem numberOfText_cons_charOfBit (acc : Nat) (b : Bool) (t : Text) :
    numberOfText acc (charOfBit b :: t) = numberOfText (2 * acc + b.toNat) t := by
  simp [numberOfText]

/-- Reading a text form after digits of value `acc` appends its bits below them. -/
theorem numberOfText_textOf {n : Nat} (acc : Nat) (v : BitVec n) :
    numberOfText acc (textOf v) = some (acc * 2 ^ n + v.toNat) := by
  induction n generalizing acc with
  | zero => simp [numberOfText, BitVec.of_length_zero]
  | succ n ih =>
    rw [textOf_width_succ, numberOfText_cons_charOfBit, ih, toNat_top v]
    congr 1
    ring

/-- Every text that reads as a number is the text form of some bits. -/
theorem exists_textOf_eq_of_numberOfText {acc m : Nat} {t : Text} (h : numberOfText acc t = some m) :
    ∃ v : BitVec t.length, textOf v = t := by
  induction t generalizing acc with
  | nil => exact ⟨0, rfl⟩
  | cons c cs ih =>
    cases hc : bitOfChar c with
    | none => simp [numberOfText, hc] at h
    | some b =>
      obtain rfl := (bitOfChar_eq_some_iff c b).mp hc
      rw [numberOfText_cons_charOfBit] at h
      obtain ⟨v, hv⟩ := ih h
      exact ⟨BitVec.cons b v, by rw [textOf_cons, hv]⟩

@[simp] theorem parseBits_textOf {n : Nat} (v : BitVec n) : parseBits n (textOf v) = some v := by
  simp [parseBits, numberOfText_textOf]

/-- The text of `n` bits is the only one that reads as them. -/
theorem parseBits_eq_some_iff {n : Nat} (t : Text) (v : BitVec n) : parseBits n t = some v ↔ textOf v = t := by
  constructor
  · intro h
    obtain ⟨hlen, m, hm, -⟩ : t.length = n ∧ ∃ m, numberOfText 0 t = some m ∧ BitVec.ofNat n m = v := by
      simpa [parseBits] using h
    subst hlen
    obtain ⟨u, hu⟩ := exists_textOf_eq_of_numberOfText hm
    have hread := parseBits_textOf u
    rw [hu, h, Option.some.injEq] at hread
    rwa [hread]
  · rintro rfl; exact parseBits_textOf v

/-- R7 for words: a text reads as the word `w` exactly if it is the text form of `w`. -/
theorem wordOfText_eq_ok_iff (t : Text) (w : Word) : wordOfText t = .ok w ↔ textOf w = t := by
  rw [← parseBits_eq_some_iff]
  unfold wordOfText
  cases parseBits 16 t <;> simp

/-- Settles O51: the weights and the length hold at every width, and each direction of the round trip is one direction
of `wordOfText_eq_ok_iff`. -/
theorem textFormIsLossless : Obligations.TextFormIsLossless :=
  ⟨toNat_eq_sum_getLsbD, textOf_length, textOf_getElem?,
    fun w => (wordOfText_eq_ok_iff _ w).mpr rfl, fun t w => (wordOfText_eq_ok_iff t w).mp⟩

end Sys2Proof.Proofs.TextForm

/-! PROOFS. What one tick can do (40_fetch_execute.md R90 to R93), as one equation for the execute phase and one inversion
for all three; and R1, the current-instruction register (10_state.md R26), which only the fetch writes. -/

namespace Sys2Proof.Proofs.InstructionRegister

open Sys2Proof Sys2Proof.Machine

/-! ## The tick that executes -/

/-- The state on which the execute phase runs `i`: phase 2 entered, and the decode notification emitted (R93, R173). -/
def executing (s : State) (i : Instr) : State :=
  (enterPhase s).emit (.decode (s.reg .r1) i.cls (i.cls.captured (s.reg .r1)))

@[simp] theorem executing_reg (s : State) (i : Instr) (r : Reg) : (executing s i).reg r = s.reg r := rfl
@[simp] theorem executing_phase (s : State) (i : Instr) : (executing s i).phase = s.phase.succ := rfl

theorem execute_enterPhase_of_decode {s : State} {i : Instr} (hi : decode (s.reg .r1) = some i) :
    execute (enterPhase s) = exec i (executing s i) := by
  obtain ⟨t, ht, rfl⟩ := Option.map_eq_some_iff.mp hi
  simp [execute, executing, ht]

/-- The tick into phase 2 runs the instruction in R1. -/
theorem step_of_decode {s : State} {i : Instr} (hp : s.phase = .advance) (hi : decode (s.reg .r1) = some i) :
    step s = finishTick (exec i (executing s i)) := by
  rw [step_into_execute s hp, execute_enterPhase_of_decode hi]

@[simp] theorem finishTick_next (t : State) : finishTick (.next t) = .next (t.emit (.tick t.phase)) := rfl

theorem finishTick_eq_next_iff (o : Host.Outcome State Fault Refusal) (t : State) :
    finishTick o = .next t ↔ ∃ u, o = .next u ∧ t = u.emit (.tick u.phase) := by
  cases o with
  | next u => simp [eq_comm]
  | fault f => simp [finishTick]
  | refused r => simp [finishTick]

/-! ## What a tick can do -/

/-- The three ways a tick gives its next state, by the phase it leaves. -/
theorem step_next_cases {s t : State} (h : step s = .next t) :
    (s.phase = .execute ∧ t = (fetch (enterPhase s)).emit (.tick .fetch)) ∨
    (s.phase = .fetch ∧ t = (advance (enterPhase s)).emit (.tick .advance)) ∨
    (s.phase = .advance ∧ ∃ i u, decode (s.reg .r1) = some i ∧ exec i (executing s i) = .next u ∧
      t = u.emit (.tick u.phase)) := by
  cases hp : s.phase with
  | execute =>
    rw [step_into_fetch s hp] at h
    cases h
    exact .inl ⟨rfl, rfl⟩
  | fetch =>
    rw [step_into_advance s hp] at h
    cases h
    exact .inr (.inl ⟨rfl, rfl⟩)
  | advance =>
    have hi := decode_eq (s.reg .r1)
    rw [step_of_decode hp hi, finishTick_eq_next_iff] at h
    obtain ⟨u, hu, rfl⟩ := h
    exact .inr (.inr ⟨rfl, _, u, hi, hu, rfl⟩)

/-! ## What every instruction leaves unchanged -/

theorem exec_phase {i : Instr} {s t : State} (h : exec i s = .next t) : t.phase = s.phase := by
  cases i with
  | store | load | setLowBits | setTopBits | pass => cases h; rfl
  | copy target source =>
    rw [exec_copy] at h
    cases h
    split_ifs <;> rfl
  | alu c k j =>
    rw [exec_alu] at h
    cases h
    split_ifs <;> rfl

/-- No instruction writes R1: COPY, the only one whose target is an operand, makes an exception of it (R120). -/
theorem exec_r1 {i : Instr} {s t : State} (h : exec i s = .next t) : t.reg .r1 = s.reg .r1 := by
  cases i with
  | store | load | setLowBits | setTopBits | pass => cases h; rfl
  | copy target source =>
    rw [exec_copy] at h
    cases h
    split_ifs with ht
    · rfl
    · simp [Ne.symm ht]
  | alu c k j =>
    rw [exec_alu] at h
    cases h
    split_ifs <;> rfl

/-! ## R1 over a tick -/

theorem step_r1_of_not_fetch {s t : State} (h : step s = .next t) (ht : t.phase ≠ .fetch) :
    t.reg .r1 = s.reg .r1 := by
  obtain ⟨hp, rfl⟩ | ⟨-, rfl⟩ | ⟨-, i, u, -, hu, rfl⟩ := step_next_cases h
  · simp [hp, Phase.succ] at ht
  · simp
  · simpa using exec_r1 hu

theorem step_r1_of_fetch {s t : State} (h : step s = .next t) (ht : t.phase = .fetch) :
    t.reg .r1 = s.word (s.reg .r0) := by
  obtain ⟨-, rfl⟩ | ⟨hp, rfl⟩ | ⟨hp, i, u, -, hu, rfl⟩ := step_next_cases h
  · simp
  · simp [hp, Phase.succ] at ht
  · simp [exec_phase hu, hp, Phase.succ] at ht

/-! ## Reading R1 -/

theorem step_copy_from_r1 {target : Reg} {s : State} (htarget : target ≠ .r1) (hp : s.phase = .advance)
    (hi : decode (s.reg .r1) = some (.copy target .r1)) :
    ∃ t, step s = .next t ∧ t.reg target = s.reg .r1 := by
  rw [step_of_decode hp hi, exec_copy, if_neg htarget]
  exact ⟨_, finishTick_next _, by simp⟩

/-- A jump through R1 reads it after R4 is written, which leaves it the word now executing. -/
theorem step_jump_through_r1 {c : JumpCond} {k : AluControl} {s : State} (hp : s.phase = .advance)
    (hi : decode (s.reg .r1) = some (.alu c k .r1))
    (hjump : jumpTaken c .r1 (alu k (s.reg .r2) (s.reg .r3)) = true) :
    ∃ t, step s = .next t ∧ t.reg .r0 = s.reg .r1 := by
  have htaken : jumpTaken c .r1 (alu k ((executing s (.alu c k .r1)).reg .r2)
      ((executing s (.alu c k .r1)).reg .r3)) = true := hjump
  rw [step_of_decode hp hi, exec_alu, if_pos htaken]
  exact ⟨_, finishTick_next _, by simp⟩

/-! ## The driver's write -/

theorem drive_writeReg_bits (r : Reg) (v : Word) (s : State) :
    drive (.writeReg r (.bits v)) s = .next (s.quiet.setReg r v) := rfl

/-- Settles O30: the core's two clauses by the inversion of a tick, COPY to R1 by its equation, the reads of R1 by the
equation of the execute phase. -/
theorem onlyFetchWritesTheInstructionRegister : Obligations.OnlyFetchWritesTheInstructionRegister := by
  refine ⟨fun _ _ => step_r1_of_not_fetch, fun _ _ => step_r1_of_fetch, fun source s => ?_,
    fun _ _ => step_copy_from_r1, fun _ _ _ => step_jump_through_r1, fun s v => ?_⟩
  · rw [exec_copy, if_pos rfl]
  · exact ⟨_, drive_writeReg_bits .r1 v s, by simp⟩

end Sys2Proof.Proofs.InstructionRegister

/-! PROOFS. The memory as the driver and the instructions see it (20_memory.md R45, R46): a cell no write has changed reads
as its initial value, and a write reaches its own cell only. -/

namespace Sys2Proof.Proofs.MemoryAccess

open Sys2Proof Sys2Proof.Machine

/-! ## Reading a cell no write has changed -/

theorem read_eq_initialWord_of_unlisted (p : InitPolicy) {m : Memory} {a : Nat} (h : ∀ c ∈ m, c.1 ≠ a) :
    m.read p a = initialWord p a := by
  induction m with
  | nil => rfl
  | cons c rest ih =>
    obtain ⟨hhead, hrest⟩ := List.forall_mem_cons.mp h
    rw [Memory.read, if_neg hhead.symm, ih hrest]

theorem word_of_unwritten {s : State} {a : Word} (h : s.unwritten a) :
    s.word a = initialWord s.policy (uint a) :=
  read_eq_initialWord_of_unlisted s.policy h

/-! ## The driver's accesses -/

theorem drive_writeMem_bits (a v : Word) (s : State) :
    drive (.writeMem a (.bits v)) s = .next (s.quiet.memWrite a v) := rfl

@[simp] theorem answer_readMem (a : Word) (s : State) : (DriverOp.readMem a).answer s = some (s.word a) := rfl

/-- Settles O44: the state written to is the quiet one, whose words, registers and materialised cells are those of `s`,
and `State.memWrite_word` says what each address then holds. -/
theorem writeThenReadGivesTheWordWritten : Obligations.WriteThenReadGivesTheWordWritten := by
  refine fun s a v => ⟨_, drive_writeMem_bits a v s, ?same, fun b hb => ?other,
    State.materialised_memWrite s.quiet a v, rfl⟩
  case same => simp
  case other => simp [hb]

/-- Settles O45: a read changes the materialised set only, so its stability is `State.materialise_word`; the initial value
is `word_of_unwritten`. -/
theorem readsAreStableAndMaterialise : Obligations.ReadsAreStableAndMaterialise :=
  fun s a => ⟨State.memRead_fst s a, word_of_unwritten, State.materialise_word s a,
    State.materialised_materialise s a, fun v => by simp⟩

end Sys2Proof.Proofs.MemoryAccess

/-! PROOFS. The decoder table as a partition of the words by their opcode suffix (30_encoding.md R72), and what follows
from it: no word is illegal or traps, and no wildcard bit reaches an action (R71, R73). -/

namespace Sys2Proof.Proofs.Encoding

open Sys2Proof Sys2Proof.Machine

/-! ## The rows of the decoder table -/

/-- A row accepts a bare suffix exactly if it is the row of the suffix's class. -/
theorem accepts_bare_suffix : ∀ t ∈ decoderTable, ∀ c : BitVec 3,
    t.accepts (c.setWidth 16) = decide (t.cls = suffixClass c) := by
  decide

theorem accepts_iff {t : Template} (ht : t ∈ decoderTable) (w : Word) :
    t.accepts w = true ↔ t.cls = suffixClass (w.extractLsb' 0 3) := by
  rw [accepts_suffix t ht, accepts_bare_suffix t ht, decide_eq_true_iff]

theorem exists_row_of_cls (c : InstrClass) : ∃ t ∈ decoderTable, t.cls = c := by
  cases c <;> decide

theorem row_eq_of_cls_eq {t u : Template} (ht : t ∈ decoderTable) (hu : u ∈ decoderTable) (h : t.cls = u.cls) :
    t = u :=
  List.inj_on_of_nodup_map (show (decoderTable.map Template.cls).Nodup by decide) ht hu h

/-- The word's class has one row, and that row alone accepts the word. -/
theorem existsUnique_row_accepting (w : Word) : ∃! t, t ∈ decoderTable ∧ t.accepts w = true := by
  obtain ⟨t, ht, hcls⟩ := exists_row_of_cls (suffixClass (w.extractLsb' 0 3))
  refine ⟨t, ⟨ht, (accepts_iff ht w).mpr hcls⟩, ?_⟩
  rintro u ⟨hu, haccepts⟩
  exact row_eq_of_cls_eq hu ht (((accepts_iff hu w).mp haccepts).trans hcls.symm)

/-- Settles O3: `decode_eq` names the instruction, `existsUnique_row_accepting` the row. -/
theorem everyWordMatchesExactlyOneTemplate : Obligations.EveryWordMatchesExactlyOneTemplate :=
  fun w => ⟨⟨_, decode_eq w⟩, existsUnique_row_accepting w⟩

/-! ## Decoding by any accepting row -/

/-- The order of the rows does not matter (R72): whichever row accepts the word gives its instruction. -/
theorem decode_eq_some_iff (w : Word) (i : Instr) :
    decode w = some i ↔ ∃ t ∈ decoderTable, t.accepts w = true ∧ t.cls.instr w = i := by
  rw [decode_eq, Option.some.injEq]
  constructor
  · rintro rfl
    obtain ⟨t, ⟨ht, haccepts⟩, -⟩ := existsUnique_row_accepting w
    exact ⟨t, ht, haccepts, by rw [(accepts_iff ht w).mp haccepts]⟩
  · rintro ⟨t, ht, haccepts, rfl⟩
    rw [(accepts_iff ht w).mp haccepts]

/-! ## The wildcard bits -/

/-- Flips confined to `flippable` are not seen through a mask that shares no position with it. -/
theorem xor_and_and_of_disjoint {flippable mask : Word} (h : flippable &&& mask = 0) (w flips : Word) :
    (w ^^^ (flips &&& flippable)) &&& mask = w &&& mask := by
  ext k hk
  have hbit : (flippable[k] && mask[k]) = false := by simp [← BitVec.getElem_and, h]
  simp only [BitVec.getElem_and, BitVec.getElem_xor, Bool.and_xor_distrib_right, Bool.and_assoc, hbit, Bool.and_false,
    Bool.xor_false]

/-- Flips confined to `flippable` are not seen in a field that shares no position with it. -/
theorem extractLsb'_xor_and_of_disjoint {lo n : Nat} {flippable : Word} (h : flippable.extractLsb' lo n = 0)
    (w flips : Word) :
    (w ^^^ (flips &&& flippable)).extractLsb' lo n = w.extractLsb' lo n := by
  simp [BitVec.extractLsb'_xor, BitVec.extractLsb'_and, h]

/-- No wildcard position of a class is a literal position of its row. -/
theorem wildcards_and_mask : ∀ t ∈ decoderTable, t.cls.wildcards &&& t.mask = 0 := by
  decide

theorem accepts_flip_wildcards {t : Template} (ht : t ∈ decoderTable) (w flips : Word) :
    t.accepts (w ^^^ (flips &&& t.cls.wildcards)) = t.accepts w := by
  rw [Template.accepts, xor_and_and_of_disjoint (wildcards_and_mask t ht), Template.accepts]

/-- No field of a class reaches into the class's wildcards (R63 to R66). -/
theorem instr_flip_wildcards (c : InstrClass) (w flips : Word) :
    c.instr (w ^^^ (flips &&& c.wildcards)) = c.instr w := by
  cases c with
  | store | load | pass => rfl
  | setLowBits | setTopBits =>
    simp (disch := decide) only [InstrClass.instr, InstrClass.wildcards, immField, extractLsb'_xor_and_of_disjoint]
  | copy =>
    simp (disch := decide) only [InstrClass.instr, InstrClass.wildcards, targetField, sourceField,
      extractLsb'_xor_and_of_disjoint]
  | aluOp =>
    simp (disch := decide) only [InstrClass.instr, InstrClass.wildcards, condField, controlField, jumpField,
      extractLsb'_xor_and_of_disjoint]

/-- The same row accepts the changed word, and captures the same fields. -/
theorem decode_flip_wildcards {w : Word} {i : Instr} (hi : decode w = some i) (flips : Word) :
    decode (w ^^^ (flips &&& i.cls.wildcards)) = some i := by
  obtain ⟨t, ht, haccepts, rfl⟩ := (decode_eq_some_iff w i).mp hi
  rw [InstrClass.instr_cls, decode_eq_some_iff]
  exact ⟨t, ht, by rwa [accepts_flip_wildcards ht], instr_flip_wildcards t.cls w flips⟩

/-! ## The reserved suffixes, and the execute tick -/

theorem suffixClass_of_reserved : ∀ c : BitVec 3, c.extractLsb' 1 2 = 0b11#2 → suffixClass c = .pass := by
  decide

/-- The words of the suffixes 110 and 111. -/
theorem decode_of_reserved {w : Word} (h : w.extractLsb' 1 2 = 0b11#2) : decode w = some .pass := by
  have hbits : (w.extractLsb' 0 3).extractLsb' 1 2 = w.extractLsb' 1 2 :=
    BitVec.extractLsb'_extractLsb'_of_le (by decide)
  rw [decode_eq, suffixClass_of_reserved _ (hbits.trans h)]
  rfl

/-- Every instruction has a meaning on every state: none faults and none is refused. -/
theorem exec_eq_next (i : Instr) (s : State) : ∃ t, exec i s = .next t := by
  cases i with
  | store => exact ⟨_, exec_store s⟩
  | load => exact ⟨_, exec_load s⟩
  | setLowBits imm => exact ⟨_, exec_setLowBits imm s⟩
  | setTopBits imm => exact ⟨_, exec_setTopBits imm s⟩
  | copy target source => exact ⟨_, exec_copy target source s⟩
  | alu c k j => exact ⟨_, exec_alu c k j s⟩
  | pass => exact ⟨_, exec_pass s⟩

theorem step_into_execute_eq_next {s : State} (hp : s.phase = .advance) : ∃ t, step s = .next t := by
  have hi := decode_eq (s.reg .r1)
  obtain ⟨u, hu⟩ := exec_eq_next _ (InstructionRegister.executing s _)
  rw [InstructionRegister.step_of_decode hp hi, hu]
  exact ⟨_, InstructionRegister.finishTick_next u⟩

/-- Settles O27: the reserved suffixes are `decode_of_reserved` and `exec_pass`, the tick is
`step_into_execute_eq_next`, the wildcards are `decode_flip_wildcards`. -/
theorem noEncodingIsIllegalOrTraps : Obligations.NoEncodingIsIllegalOrTraps :=
  ⟨fun _ hreserved => ⟨.pass, decode_of_reserved hreserved, exec_pass⟩,
    fun w s => step_into_execute_eq_next (placeFetchWord_phase s 16 w.toNat),
    fun _ flips _ hi => decode_flip_wildcards hi flips⟩

end Sys2Proof.Proofs.Encoding

/-! PROOFS. The three-phase clock (40_fetch_execute.md R90 to R92): which phase a tick enters, its one tick notification,
and the effect of the fetch, of the advance, and of the one instruction on registers and memory. -/

namespace Sys2Proof.Proofs.Clock

open Sys2Proof Sys2Proof.Machine Sys2Proof.Proofs.InstructionRegister

/-! ## The phase a tick enters -/

theorem succ_number (p : Phase) : p.succ.number = (p.number + 1) % 3 := by
  cases p <;> rfl

theorem succ_succ_succ (p : Phase) : p.succ.succ.succ = p := by
  cases p <;> rfl

theorem succ_injective : Function.Injective Phase.succ :=
  Function.LeftInverse.injective (g := Phase.succ ∘ Phase.succ) succ_succ_succ

theorem step_eq_next (s : State) : ∃ t, step s = .next t := by
  cases hp : s.phase with
  | fetch => exact ⟨_, step_into_advance s hp⟩
  | advance => exact Encoding.step_into_execute_eq_next hp
  | execute => exact ⟨_, step_into_fetch s hp⟩

theorem step_phase {s t : State} (h : step s = .next t) : t.phase = s.phase.succ := by
  obtain ⟨-, rfl⟩ | ⟨-, rfl⟩ | ⟨-, i, u, -, hu, rfl⟩ := step_next_cases h
  · simp
  · simp
  · simpa using exec_phase hu

/-- The phase a tick enters determines the phase it leaves. -/
theorem step_leaves {s t : State} {p : Phase} (h : step s = .next t) (ht : t.phase = p.succ) : s.phase = p :=
  succ_injective ((step_phase h).symm.trans ht)

/-! ## The notifications of a tick -/

/-- An instruction emits its change notifications after those already emitted (R173, R174). -/
theorem exec_events {i : Instr} {s t : State} (h : exec i s = .next t) :
    t.events = s.events ++ changeEvents i s := by
  cases i with
  | store | load | setLowBits | setTopBits => cases h; rfl
  | pass => cases h; simp [changeEvents]
  | copy target source =>
    rw [exec_copy] at h
    cases h
    split_ifs with ht <;> simp [changeEvents, ht]
  | alu c k j =>
    rw [exec_alu] at h
    cases h
    split_ifs with hjump <;> simp [changeEvents, hjump]

theorem filter_isTick_changeEvents (i : Instr) (s : State) : (changeEvents i s).filter Event.isTick = [] := by
  cases i with
  | store | load | setLowBits | setTopBits | pass => rfl
  | copy target source => simp only [changeEvents]; split_ifs <;> rfl
  | alu c k j => simp only [changeEvents]; split_ifs <;> rfl

/-- One tick notification per tick, carrying the phase entered (R90). -/
theorem step_filter_isTick {s t : State} (h : step s = .next t) :
    t.events.filter Event.isTick = [.tick t.phase] := by
  obtain ⟨hp, rfl⟩ | ⟨hp, rfl⟩ | ⟨-, i, u, -, hu, rfl⟩ := step_next_cases h
  · simp [Event.isTick, hp, Phase.succ]
  · simp [Event.isTick, hp, Phase.succ]
  · simp [exec_events hu, executing, filter_isTick_changeEvents, Event.isTick]

/-! ## The effect of an instruction is a function of registers and memory -/

/-- Two states with the same registers and the same words give the same ones after the same instruction: neither the
phase, nor the materialised cells, nor the outbox reaches its effect. -/
theorem exec_congr {i : Instr} {s t u v : State} (hx : s.x = t.x) (hword : ∀ a, s.word a = t.word a)
    (hu : exec i s = .next u) (hv : exec i t = .next v) : u.x = v.x ∧ ∀ a, u.word a = v.word a := by
  have hreg : ∀ r, s.reg r = t.reg r := fun r => congrArg (·.get r) hx
  cases i with
  | store | load | setLowBits | setTopBits => cases hu; cases hv; simp [hx, hreg, hword]
  | pass => cases hu; cases hv; exact ⟨hx, hword⟩
  | copy target source =>
    rw [exec_copy] at hu hv
    cases hu; cases hv
    split_ifs <;> simp [hx, hreg, hword]
  | alu c k j =>
    rw [exec_alu] at hu hv
    cases hu; cases hv
    rw [hreg .r2, hreg .r3]
    split_ifs <;> simp [hx, hreg, hword]

/-! ## The action of the phase entered -/

theorem step_enters_fetch {s t : State} (h : step s = .next t) (ht : t.phase = .fetch) :
    t.x = s.x.set .r1 (s.word (s.reg .r0)) ∧ ∀ a, t.word a = s.word a := by
  rw [step_into_fetch s (step_leaves h ht)] at h
  cases h
  simp

theorem step_enters_advance {s t : State} (h : step s = .next t) (ht : t.phase = .advance) :
    t.x = s.x.set .r0 (s.reg .r0 + 1) ∧ ∀ a, t.word a = s.word a := by
  rw [step_into_advance s (step_leaves h ht)] at h
  cases h
  simp

/-- The execute phase runs the instruction on a state that differs from `s` in its phase and its outbox only. -/
theorem step_enters_execute {s t : State} (h : step s = .next t) (ht : t.phase = .execute) :
    ∃ i u, decode (s.reg .r1) = some i ∧ exec i s = .next u ∧ t.x = u.x ∧ ∀ a, t.word a = u.word a := by
  have hi := decode_eq (s.reg .r1)
  rw [step_of_decode (step_leaves h ht) hi, finishTick_eq_next_iff] at h
  obtain ⟨v, hv, rfl⟩ := h
  obtain ⟨u, hu⟩ := Encoding.exec_eq_next _ s
  obtain ⟨hx, hword⟩ := exec_congr (s := executing s _) (t := s) rfl (fun _ => rfl) hv hu
  exact ⟨_, u, hi, hu, hx, hword⟩

/-- Settles O8: `step_phase` and `step_filter_isTick` are the clock, and the action of each phase has its lemma. -/
theorem tickAdvancesThePhaseAndActs : Obligations.TickAdvancesThePhaseAndActs := by
  intro s
  obtain ⟨t, h⟩ := step_eq_next s
  have hnumber : t.phase.number = (s.phase.number + 1) % 3 := by rw [step_phase h, succ_number]
  exact ⟨t, h, hnumber, step_filter_isTick h, step_enters_fetch h, step_enters_advance h, step_enters_execute h⟩

/-! ## What fetch and advance leave unchanged -/

theorem fetch_frame (s : State) : s.frame (fetch s) [.r1] [] [s.reg .r0] :=
  ⟨fun r hr => by simp [List.ne_of_not_mem_cons hr], fun _ _ => rfl,
    fun a => by simpa using State.materialised_materialise s (s.reg .r0) a, rfl, rfl⟩

theorem advance_frame (s : State) : s.frame (advance s) [.r0] [] [] :=
  ⟨fun r hr => by simp [List.ne_of_not_mem_cons hr], fun _ _ => rfl, fun a => by simp, rfl, rfl⟩

/-- The outbox is no part of a frame: entering a phase is replacing the phase, and a notification changes nothing. -/
theorem frame_of_enterPhase {s t : State} {p : Phase} {written : List Reg} {stored accessed : List Word} {e : Event}
    (hp : s.phase.succ = p) (h : (enterPhase s).frame t written stored accessed) :
    State.frame { s with phase := p } (t.emit e) written stored accessed := by
  subst hp
  exact h

/-- Settles O9: the tick is the fetch, whose word is the initial one in an unwritten cell by `word_of_unwritten`. -/
theorem fetchLoadsTheInstructionRegister : Obligations.FetchLoadsTheInstructionRegister := by
  intro s hp
  have hstep := step_into_fetch s hp
  have hphase : ((fetch (enterPhase s)).emit (.tick .fetch)).phase = .fetch := by simp [hp, Phase.succ]
  have hr1 := step_r1_of_fetch hstep hphase
  refine ⟨_, hstep, hphase, hr1, fun hunwritten => hr1.trans (MemoryAccess.word_of_unwritten hunwritten), rfl, ?frame⟩
  case frame => exact frame_of_enterPhase (by rw [hp]; rfl) (fetch_frame (enterPhase s))

/-- Settles O10: the tick is the advance, which adds 1 to R0 as a word, that is modulo 65536. -/
theorem advanceIncrementsThePointer : Obligations.AdvanceIncrementsThePointer := by
  intro s hp
  have hr0 : ((advance (enterPhase s)).emit (.tick .advance)).reg .r0 = s.reg .r0 + 1 := by simp
  refine ⟨_, step_into_advance s hp, by simp [hp, Phase.succ], ?sum, fun hlast => ?wrap, ?frame⟩
  case sum => rw [hr0, uint, BitVec.toNat_add]; rfl
  case wrap => rw [hr0, hlast]; rfl
  case frame => exact frame_of_enterPhase (by rw [hp]; rfl) (advance_frame (enterPhase s))

end Sys2Proof.Proofs.Clock

/-! PROOFS. The frame of each state operation, and of two operations in a row: what is written, and that all else stays
as it was. -/

namespace Sys2Proof.Proofs.Frame

open Sys2Proof Sys2Proof.Machine

theorem setReg_frame (s : State) (r : Reg) (v : Word) : s.frame (s.setReg r v) [r] [] [] :=
  ⟨fun q hq => by simp [List.ne_of_not_mem_cons hq], fun _ _ => rfl, fun a => by simp, rfl, rfl⟩

theorem materialise_frame (s : State) (a : Word) : s.frame (s.materialise a) [] [] [a] :=
  ⟨fun _ _ => rfl, fun _ _ => rfl, fun b => by simpa using State.materialised_materialise s a b, rfl, rfl⟩

theorem memWrite_frame (s : State) (a v : Word) : s.frame (s.memWrite a v) [] [a] [a] :=
  ⟨fun _ _ => rfl, fun b hb => by simp [List.ne_of_not_mem_cons hb],
    fun b => by simpa using State.materialised_memWrite s a v b, rfl, rfl⟩

/-- Frames compose: what two operations in a row may change is what either may change. -/
theorem frame_trans {s t u : State} {written written' : List Reg} {stored stored' accessed accessed' : List Word}
    (h : s.frame t written stored accessed) (h' : t.frame u written' stored' accessed') :
    s.frame u (written ++ written') (stored ++ stored') (accessed ++ accessed') := by
  obtain ⟨hreg, hword, hmaterialised, hphase, hpolicy⟩ := h
  obtain ⟨hreg', hword', hmaterialised', hphase', hpolicy'⟩ := h'
  refine ⟨fun r hr => ?reg, fun a ha => ?word, fun a => ?materialised, hphase'.trans hphase, hpolicy'.trans hpolicy⟩
  case reg =>
    obtain ⟨hr₁, hr₂⟩ := not_or.mp (mt List.mem_append.mpr hr)
    exact (hreg' r hr₂).trans (hreg r hr₁)
  case word =>
    obtain ⟨ha₁, ha₂⟩ := not_or.mp (mt List.mem_append.mpr ha)
    exact (hword' a ha₂).trans (hword a ha₁)
  case materialised =>
    rw [hmaterialised', hmaterialised, List.mem_append, or_left_comm, or_assoc]

end Sys2Proof.Proofs.Frame

/-! PROOFS. STORE and LOAD (41_memory_access.md R100, R101): the words that decode to them, and their effect. -/

namespace Sys2Proof.Proofs.StoreLoad

open Sys2Proof Sys2Proof.Machine Sys2Proof.Proofs.Frame

theorem decode_of_suffix {w : Word} {c : BitVec 3} (h : w.extractLsb' 0 3 = c) :
    decode w = some ((suffixClass c).instr w) := by
  rw [decode_eq, h]

/-- A word written to the address in R0 in phase 2 is the next instruction (20_memory.md R53). -/
theorem step_memWrite_at_pointer {s : State} (hp : s.phase = .execute) (v : Word) :
    ∃ u, step (s.memWrite (s.reg .r0) v) = .next u ∧ u.reg .r1 = v := by
  obtain ⟨u, hu, -, hr1, -⟩ := Clock.fetchLoadsTheInstructionRegister (s.memWrite (s.reg .r0) v) hp
  exact ⟨u, hu, by simpa using hr1⟩

/-- Settles O17: STORE is one memory write, so its frame is `memWrite_frame`; the fetch after it is
`step_memWrite_at_pointer`. -/
theorem storeWritesR7ToMemoryAtR5 : Obligations.StoreWritesR7ToMemoryAtR5 := by
  refine ⟨fun _ => decode_of_suffix, rfl, fun s => ⟨_, exec_store s, ?cell, memWrite_frame s _ _, ?nextFetch⟩⟩
  case cell => simp
  case nextFetch =>
    intro hpointer hp
    rw [hpointer]
    exact step_memWrite_at_pointer hp (s.reg .r7)

/-- LOAD materialises the cell, then writes R6. -/
theorem load_frame (s : State) :
    s.frame ((s.materialise (s.reg .r5)).setReg .r6 (s.word (s.reg .r5))) [.r6] [] [s.reg .r5] :=
  frame_trans (materialise_frame s _) (setReg_frame _ .r6 _)

/-- Settles O18: R6 is the word at R5, which is the initial one in an unwritten cell by `word_of_unwritten`; a second
LOAD finds the same R5 and the same word. -/
theorem loadReadsMemoryAtR5IntoR6 : Obligations.LoadReadsMemoryAtR5IntoR6 := by
  refine ⟨fun _ => decode_of_suffix, rfl, fun s => ?_⟩
  have hr6 : ((s.materialise (s.reg .r5)).setReg .r6 (s.word (s.reg .r5))).reg .r6 = s.word (s.reg .r5) := by simp
  refine ⟨_, exec_load s, ?unsigned, hr6, fun hunwritten => ?initial, load_frame s, _, exec_load _, ?again⟩
  case unsigned => rw [hr6, uint, BitVec.ofNat_toNat, BitVec.setWidth_eq]
  case initial => exact hr6.trans (MemoryAccess.word_of_unwritten hunwritten)
  case again => simp

end Sys2Proof.Proofs.StoreLoad

/-! PROOFS. SETLOWBITS and SETTOPBITS (42_setbits.md R110, R111): the words that decode to them, their canonical words, and
the byte of R7 that each writes. Neither reads the byte that the other writes, so they commute. -/

namespace Sys2Proof.Proofs.SetBits

open Sys2Proof Sys2Proof.Machine Sys2Proof.Proofs.Frame Sys2Proof.Proofs.StoreLoad

/-- Placing a field is shifting its value, modulo 65536. -/
theorem placeField_eq_ofNat {n : Nat} (v : BitVec n) (lo : Nat) :
    placeField v lo = BitVec.ofNat 16 (v.toNat <<< lo) := by
  apply BitVec.eq_of_toNat_eq
  simp only [placeField, BitVec.toNat_shiftLeft, BitVec.toNat_setWidth, BitVec.toNat_ofNat, Nat.shiftLeft_eq,
    Nat.mod_mul_mod]

/-- The canonical word of a format I instruction, from its field and its suffix (30_encoding.md R64). -/
theorem placeField_or_suffix (imm : BitVec 8) (suffix : Nat) :
    placeField imm 3 ||| BitVec.ofNat 16 suffix = BitVec.ofNat 16 ((imm.toNat <<< 3) ||| suffix) := by
  rw [placeField_eq_ofNat, BitVec.ofNat_or]

/-- Settles O19: SETLOWBITS is one write of R7, so its frame is `setReg_frame`; in both orders the two instructions
join the same two bytes, because each keeps the byte of the other. -/
theorem setLowBitsWritesTheHighByteOfR7 : Obligations.SetLowBitsWritesTheHighByteOfR7 := by
  refine ⟨fun _ => decode_of_suffix, fun imm => placeField_or_suffix imm 2, fun imm s => ?_⟩
  refine ⟨_, exec_setLowBits imm s, ?high, ?low, setReg_frame s .r7 _,
    fun b => ⟨_, _, _, exec_setTopBits b _, exec_setTopBits b s, exec_setLowBits imm _, ?lowFirst, ?topFirst⟩⟩
  case high => rw [State.setReg_reg, if_pos rfl, highByte_joinBytes]
  case low => rw [State.setReg_reg, if_pos rfl, lowByte_joinBytes]
  case lowFirst => simp
  case topFirst => simp

/-- Settles O20: SETTOPBITS is one write of R7, so its frame is `setReg_frame`. -/
theorem setTopBitsWritesTheLowByteOfR7 : Obligations.SetTopBitsWritesTheLowByteOfR7 := by
  refine ⟨fun _ => decode_of_suffix, fun imm => placeField_or_suffix imm 3, fun imm s => ?_⟩
  refine ⟨_, exec_setTopBits imm s, ?low, ?high, setReg_frame s .r7 _⟩
  case low => rw [State.setReg_reg, if_pos rfl, lowByte_joinBytes]
  case high => rw [State.setReg_reg, if_pos rfl, highByte_joinBytes]

end Sys2Proof.Proofs.SetBits

/-! PROOFS. Running whole ticks in a row, and the instruction cycle from phase 2 (40_fetch_execute.md R94, R97): fetch,
advance, and the one instruction that stood at the pointer. -/

namespace Sys2Proof.Proofs.Cycle

open Sys2Proof Sys2Proof.Machine Sys2Proof.Proofs.Clock

@[simp] theorem run_zero (s : State) : Host.Core.run core 0 s = .next s := rfl

theorem run_succ_of_step {s t : State} (n : Nat) (h : step s = .next t) :
    Host.Core.run core (n + 1) s = Host.Core.run core n t := by
  have hcore : core.step s = .next t := h
  simp only [Host.Core.run, hcore]

theorem reg_eq_of_x_eq {s t : State} (h : t.x = s.x) (r : Reg) : t.reg r = s.reg r :=
  congrArg (·.get r) h

theorem reg_of_x_eq_set {s t : State} {q : Reg} {v : Word} (h : t.x = s.x.set q v) (r : Reg) :
    t.reg r = if r = q then v else s.reg r := by
  rw [State.reg, h, RegFile.get_set, State.reg]

theorem step_into_phase {s : State} {p : Phase} (hp : s.phase = p) : ∃ t, step s = .next t ∧ t.phase = p.succ := by
  obtain ⟨t, h⟩ := step_eq_next s
  exact ⟨t, h, by rw [step_phase h, hp]⟩

/-- Three ticks from phase 2 run the instruction at the pointer once, on a state `u` whose R1 holds its word and whose R0
holds the address after it. -/
theorem run_cycle {s : State} {i : Instr} (hp : s.phase = .execute) (hi : decode (s.word (s.reg .r0)) = some i) :
    ∃ u v w : State, u.x = (s.x.set .r1 (s.word (s.reg .r0))).set .r0 (s.reg .r0 + 1) ∧ (∀ a, u.word a = s.word a) ∧
      exec i u = .next v ∧ Host.Core.run core 3 s = .next w ∧ w.phase = .execute ∧ w.x = v.x ∧
      ∀ a, w.word a = v.word a := by
  obtain ⟨t, hfetch, htp⟩ := step_into_phase hp
  obtain ⟨u, hadvance, hup⟩ := step_into_phase htp
  obtain ⟨w, hexecute, hwp⟩ := step_into_phase hup
  obtain ⟨htx, htword⟩ := step_enters_fetch hfetch htp
  obtain ⟨hux, huword⟩ := step_enters_advance hadvance hup
  obtain ⟨j, v, hj, hv, hwx, hwword⟩ := step_enters_execute hexecute hwp
  have ht0 : t.reg .r0 = s.reg .r0 := by simp [reg_of_x_eq_set htx]
  have hu1 : u.reg .r1 = s.word (s.reg .r0) := by simp [reg_of_x_eq_set hux, reg_of_x_eq_set htx]
  obtain rfl : i = j := Option.some.inj (hi.symm.trans (hu1 ▸ hj))
  have hrun : Host.Core.run core 3 s = .next w := by
    rw [run_succ_of_step 2 hfetch, run_succ_of_step 1 hadvance, run_succ_of_step 0 hexecute, run_zero]
  exact ⟨u, v, w, by rw [hux, htx, ht0], fun a => (huword a).trans (htword a), hv, hrun, hwp, hwx, hwword⟩

end Sys2Proof.Proofs.Cycle

/-! PROOFS. COPY (43_copy.md R120): the words that decode to it, its canonical word, its effect with and without R1 as
target, and the COPY that jumps to itself. -/

namespace Sys2Proof.Proofs.Copy

open Sys2Proof Sys2Proof.Machine Sys2Proof.Proofs.Frame Sys2Proof.Proofs.StoreLoad Sys2Proof.Proofs.SetBits

/-! ## The word -/

/-- The canonical word of format C, from its two fields and its suffix (30_encoding.md R65). -/
theorem encode_copy (target source : Reg) :
    encode (.copy target source) =
      BitVec.ofNat 16 ((target.code.toNat <<< 6) ||| (source.code.toNat <<< 3) ||| 0x0004) := by
  rw [encode, placeField_eq_ofNat, placeField_eq_ofNat, BitVec.ofNat_or, BitVec.ofNat_or]
  rfl

/-- The low nine bits hold both codes and the suffix; those of 0x000C say COPY 000 001, whatever the wildcards. -/
theorem decode_copy_r0_r1 {w : Word} (h : w.extractLsb' 0 9 = 0x00C#9) : decode w = some (.copy .r0 .r1) := by
  have hfield : ∀ lo n, lo + n ≤ 9 → w.extractLsb' lo n = (0x00C#9).extractLsb' lo n := by
    intro lo n hle
    rw [← h, BitVec.extractLsb'_extractLsb'_of_le hle]
  have hsuffix : w.extractLsb' 0 3 = 0b100#3 := hfield 0 3 (by decide)
  rw [decode_of_suffix hsuffix]
  simp only [suffixClass, InstrClass.instr, targetField, sourceField, hfield 6 3 (by decide), hfield 3 3 (by decide)]
  rfl

/-! ## The effect -/

theorem frame_refl (s : State) : s.frame s [] [] [] :=
  ⟨fun _ _ => rfl, fun _ _ => rfl, fun a => by simp, rfl, rfl⟩

theorem exec_copy_to_r1 (source : Reg) (s : State) : exec (.copy .r1 source) s = .next s := by
  rw [exec_copy, if_pos rfl]

theorem exec_copy_of_ne_r1 {target : Reg} (h : target ≠ .r1) (source : Reg) (s : State) :
    exec (.copy target source) s = .next (s.setReg target (s.reg source)) := by
  rw [exec_copy, if_neg h]

/-- A jump in phase 2 is seen by the fetch that follows it. -/
theorem step_jump {s : State} (hp : s.phase = .execute) (v : Word) :
    ∃ u, step (s.setReg .r0 v) = .next u ∧ u.reg .r1 = s.word v := by
  obtain ⟨u, hu, -, hr1, -⟩ := Clock.fetchLoadsTheInstructionRegister (s.setReg .r0 v) hp
  exact ⟨u, hu, by simpa using hr1⟩

/-- COPY 000 001 at the address equal to its own word jumps to itself: R1 holds that word when it runs. -/
theorem run_selfLoop {s : State} (hp : s.phase = .execute) (hcopy : (s.reg .r0).extractLsb' 0 9 = 0x00C#9)
    (hself : s.word (s.reg .r0) = s.reg .r0) :
    ∃ v, Host.Core.run core 3 s = .next v ∧ v.reg .r0 = s.reg .r0 ∧ v.phase = .execute ∧
      ∀ a, v.word a = s.word a := by
  have hi : decode (s.word (s.reg .r0)) = some (.copy .r0 .r1) := by rw [hself, decode_copy_r0_r1 hcopy]
  obtain ⟨u, v, w, hux, huword, hv, hrun, hwp, hwx, hwword⟩ := Cycle.run_cycle hp hi
  rw [exec_copy_of_ne_r1 (by decide)] at hv
  cases hv
  have hu1 : u.reg .r1 = s.reg .r0 := by rw [State.reg, hux, hself]; simp
  refine ⟨w, hrun, ?pointer, hwp, fun a => ?memory⟩
  case pointer => rw [Cycle.reg_eq_of_x_eq hwx, State.setReg_reg, if_pos rfl, hu1]
  case memory => rw [hwword, State.setReg_word, huword]

/-- Settles O23: COPY to R1 is no write and every other COPY is one, so its frame is `setReg_frame`; with target and
source equal it writes back what the register holds; the fetch after a jump is `step_jump`. -/
theorem copyMovesARegisterUnlessTheTargetIsR1 : Obligations.CopyMovesARegisterUnlessTheTargetIsR1 := by
  refine ⟨fun _ => decode_of_suffix, encode_copy, fun _ => run_selfLoop, fun target source s => ?_⟩
  by_cases htarget : target = .r1
  case pos =>
    subst htarget
    exact ⟨s, exec_copy_to_r1 source s, fun hne => absurd rfl hne, fun _ => rfl, fun _ => rfl, frame_refl s, nofun⟩
  case neg =>
    refine ⟨_, exec_copy_of_ne_r1 htarget source s, fun _ => ?moved, fun hr1 => absurd hr1 htarget, ?sameRegister,
      ?frame, ?jump⟩
    case moved => simp
    case sameRegister => rintro rfl; exact RegFile.set_get s.x target
    case frame => rw [if_neg htarget]; exact setReg_frame s target _
    case jump => rintro rfl hp; exact step_jump hp (s.reg source)

end Sys2Proof.Proofs.Copy

/-! PROOFS. The ALU as a function of two words (44_alu.md R130 to R136): the ripple-carry adder is addition, the two flags
as statements about the unsigned view, and the whole against the spec's pseudocode. -/

namespace Sys2Proof.Proofs.Alu

open Sys2Proof Sys2Proof.Machine

/-! ## The ripple-carry adder -/

theorem ripple_carry_zero (a b : Word) : (ripple a b 0).2 = false := rfl

theorem ripple_carry_succ (a b : Word) (n : Nat) :
    (ripple a b (n + 1)).2 = carryBit (a.getLsbD n) (b.getLsbD n) (ripple a b n).2 := rfl

theorem ripple_sum_succ (a b : Word) (n : Nat) :
    (ripple a b (n + 1)).1 =
      BitVec.cons (sumBit (a.getLsbD n) (b.getLsbD n) (ripple a b n).2) (ripple a b n).1 := rfl

/-- A later full adder does not change the sum bit of an earlier one. -/
theorem getLsbD_ripple_sum (a b : Word) {n k : Nat} (h : k < n) :
    (ripple a b n).1.getLsbD k = sumBit (a.getLsbD k) (b.getLsbD k) (ripple a b k).2 := by
  induction n with
  | zero => omega
  | succ n ih =>
    rw [ripple_sum_succ, BitVec.getLsbD_cons]
    split_ifs with hk
    case pos => rw [hk]
    case neg => exact ih (by omega)

/-- The carry of the chain is the library's carry of an addition: both are the majority of the three bits. -/
theorem ripple_carry_eq_carry (a b : Word) (n : Nat) : (ripple a b n).2 = BitVec.carry n a b false := by
  induction n with
  | zero => rw [ripple_carry_zero, BitVec.carry_zero]
  | succ n ih => rw [ripple_carry_succ, ih, BitVec.carry_succ]; rfl

theorem getLsbD_aluAdd (a b : Word) {k : Nat} (h : k < 16) :
    (aluAdd a b).getLsbD k = sumBit (a.getLsbD k) (b.getLsbD k) (ripple a b k).2 :=
  getLsbD_ripple_sum a b h

theorem aluAdd_eq_add (a b : Word) : aluAdd a b = a + b := by
  apply BitVec.eq_of_getLsbD_eq
  intro k hk
  rw [getLsbD_aluAdd a b hk, ripple_carry_eq_carry, BitVec.getLsbD_add hk, sumBit, Bool.xor_assoc]

/-- Settles O38: the carry chain is the adder's own, and bit by bit its sum is that of bit-vector addition. -/
theorem rippleCarryAddIsAdditionMod65536 : Obligations.RippleCarryAddIsAdditionMod65536 := by
  intro a b
  refine ⟨⟨fun k => (ripple a b k).2, ripple_carry_zero a b, fun k hk =>
    ⟨getLsbD_aluAdd a b hk, ripple_carry_succ a b k⟩⟩, ?word, ?value⟩
  case word => rw [aluAdd_eq_add, uint, uint, BitVec.ofNat_add, BitVec.ofNat_toNat, BitVec.ofNat_toNat,
    BitVec.setWidth_eq, BitVec.setWidth_eq]
  case value => rw [aluAdd_eq_add, uint, BitVec.toNat_add]; rfl

/-! ## The flags -/

theorem isNegative_iff_le_uint (out : Word) : isNegative out = true ↔ 0x8000 ≤ uint out := by
  rw [isNegative, BitVec.getLsbD_last, decide_eq_true_iff]; rfl

/-- Without bit 15 the unsigned view is taken modulo 32768. -/
theorem isZero_eq_decide (out : Word) : isZero out = decide (uint out % 32768 = 0) := by
  rw [isZero, Bool.beq_eq_decide_eq, decide_eq_decide, ← BitVec.toNat_inj, BitVec.extractLsb'_toNat]; rfl

theorem isZero_iff (out : Word) : isZero out = true ↔ out = 0x0000 ∨ out = 0x8000 := by
  rw [isZero_eq_decide, decide_eq_true_iff, uint]
  bv_omega

/-- Of the two zeros only −0 has bit 15 set. -/
theorem isNegative_and_isZero_iff (out : Word) : isNegative out = true ∧ isZero out = true ↔ out = 0x8000 := by
  rw [isZero_iff]
  constructor
  · rintro ⟨hnegative, rfl | rfl⟩
    · exact absurd hnegative (by decide)
    · rfl
  · rintro rfl
    exact ⟨by decide, .inr rfl⟩

/-- Settles O39: the flags are those of the result, whatever the controls and operands. -/
theorem flagsAreTheSignMagnitudeSignAndZero : Obligations.FlagsAreTheSignMagnitudeSignAndZero := fun k x y =>
  ⟨isNegative_iff_le_uint (aluOut k x y), isZero_iff (aluOut k x y), isNegative_and_isZero_iff (aluOut k x y)⟩

/-! ## The spec's pseudocode -/

/-- The reference's result is the model's: ADD is addition, and every other operation is written alike. -/
theorem referenceAlu_result (k : AluControl) (x y : Word) :
    (referenceAlu x y k.zeroX k.negateX k.zeroY k.negateY k.opSelect k.negateOut).1 = aluOut k x y := by
  simp only [aluOut, aluAdd_eq_add]
  rfl

theorem referenceAlu_flags (x y : Word) (zx nx zy ny f no : Bool) :
    (referenceAlu x y zx nx zy ny f no).2 =
      (isNegative (referenceAlu x y zx nx zy ny f no).1, isZero (referenceAlu x y zx nx zy ny f no).1) := by
  rw [isZero_eq_decide]
  rfl

/-- Settles O40: the results agree by `referenceAlu_result`, and both take the same flags of it. -/
theorem aluIsTheSpecsFunction : Obligations.AluIsTheSpecsFunction := by
  intro k x y
  rw [alu_result, alu_isNegative, alu_isZero, ← referenceAlu_result, ← referenceAlu_flags]

end Sys2Proof.Proofs.Alu

/-! PROOFS. The encoder against the decoder (30_encoding.md R62 to R71), both ways: an instruction's fields are found
again where the encoder places them, and a word's fields are placed again where the decoder finds them. -/

namespace Sys2Proof.Proofs.RoundTrip

open Sys2Proof Sys2Proof.Machine Sys2Proof.Proofs.Encoding Sys2Proof.Proofs.StoreLoad

/-! ## A field placed in a word -/

theorem getLsbD_placeField {n : Nat} (v : BitVec n) (lo k : Nat) :
    (placeField v lo).getLsbD k = (decide (k < 16) && decide (lo ≤ k) && v.getLsbD (k - lo)) := by
  by_cases hk : k < 16
  · have hshift : k - lo < 16 := by omega
    simp only [placeField, BitVec.getLsbD_shiftLeft, BitVec.getLsbD_setWidth, hk, hshift, decide_true, Bool.true_and,
      ← decide_not, not_lt]
  · simp [placeField, hk]

theorem extractLsb'_placeField {n lo : Nat} (h : lo + n ≤ 16) (v : BitVec n) :
    (placeField v lo).extractLsb' lo n = v := by
  apply BitVec.eq_of_getLsbD_eq
  intro k hk
  rw [BitVec.getLsbD_extractLsb', getLsbD_placeField]
  simp [hk, show lo + k < 16 by omega]

theorem extractLsb'_placeField_of_disjoint {n m lo start : Nat} (h : start + m ≤ lo ∨ lo + n ≤ start)
    (v : BitVec n) : (placeField v lo).extractLsb' start m = 0 := by
  apply BitVec.eq_of_getLsbD_eq
  intro k hk
  have hbit : (decide (lo ≤ start + k) && v.getLsbD (start + k - lo)) = false := by
    rcases h with h | h
    · simp [show ¬ lo ≤ start + k by omega]
    · simp [BitVec.getLsbD_of_ge v (start + k - lo) (by omega)]
  rw [BitVec.getLsbD_extractLsb', getLsbD_placeField, Bool.and_assoc, hbit]
  simp

/-- A field taken from a word and placed where it was is the word with every other bit cleared. -/
theorem placeField_extractLsb' (w : Word) (lo n : Nat) :
    placeField (w.extractLsb' lo n) lo = w &&& placeField (BitVec.allOnes n) lo := by
  apply BitVec.eq_of_getLsbD_eq
  intro k hk
  rw [BitVec.getLsbD_and, getLsbD_placeField, getLsbD_placeField]
  by_cases hlo : lo ≤ k
  · simp [hk, hlo, Bool.and_comm]
  · simp [hlo]

@[simp] theorem placeField_zero (n lo : Nat) : placeField (0#n) lo = 0 := by
  simp [placeField]

/-! ## Codes and bits -/

@[simp] theorem regOfCode_code (r : Reg) : regOfCode r.code = r := by
  cases r <;> rfl

@[simp] theorem code_regOfCode : ∀ c : BitVec 3, (regOfCode c).code = c := by
  decide

@[simp] theorem control_ofBits_bits : ∀ k : AluControl, AluControl.ofBits k.bits = k := by
  rintro ⟨zx, nx, zy, ny, f, no⟩
  revert zx nx zy ny f no
  decide

@[simp] theorem control_bits_ofBits : ∀ k : BitVec 6, (AluControl.ofBits k).bits = k := by
  decide

@[simp] theorem cond_ofBits_bits : ∀ c : JumpCond, JumpCond.ofBits c.bits = c := by
  rintro ⟨z, n⟩
  revert z n
  decide

@[simp] theorem cond_bits_ofBits : ∀ c : BitVec 2, (JumpCond.ofBits c).bits = c := by
  decide

/-! ## Decoding an encoding -/

/-- The fields end above the suffix, so the suffix is the class's own (R62). -/
theorem suffixClass_encode (i : Instr) : suffixClass ((encode i).extractLsb' 0 3) = i.cls := by
  cases i with
  | store | load | pass => decide
  | setLowBits | setTopBits | copy | alu =>
    simp (disch := decide) [encode, BitVec.extractLsb'_or, extractLsb'_placeField_of_disjoint, suffixClass, Instr.cls]

/-- Each field is extracted from where it was placed, no other field reaching there. -/
theorem instr_encode (i : Instr) : i.cls.instr (encode i) = i := by
  cases i with
  | store | load | pass => rfl
  | setLowBits imm | setTopBits imm =>
    simp (disch := decide) [Instr.cls, InstrClass.instr, encode, immField, BitVec.extractLsb'_or,
      extractLsb'_placeField]
  | copy t s =>
    simp (disch := decide) [Instr.cls, InstrClass.instr, encode, targetField, sourceField, BitVec.extractLsb'_or,
      extractLsb'_placeField, extractLsb'_placeField_of_disjoint]
  | alu c k j =>
    simp (disch := decide) [Instr.cls, InstrClass.instr, encode, condField, controlField, jumpField,
      BitVec.extractLsb'_or, extractLsb'_placeField, extractLsb'_placeField_of_disjoint]

theorem decode_encode (i : Instr) : decode (encode i) = some i := by
  rw [decode_eq, suffixClass_encode, instr_encode]

/-- Settles O1: `suffixClass_encode` selects the class and `instr_encode` gives the operands back; every instruction is
well formed, so the hypothesis is not used. -/
theorem decodeOfEncodeIsIdentity : Obligations.DecodeOfEncodeIsIdentity :=
  fun i _ => decode_encode i

/-! ## Encoding a decoding -/

/-- The positions of a class's captured fields (R63 to R66). -/
def fieldMask : InstrClass → Word
  | .store | .load | .pass => 0
  | .setLowBits | .setTopBits => placeField (BitVec.allOnes 8) 3
  | .copy => placeField (BitVec.allOnes 3) 6 ||| placeField (BitVec.allOnes 3) 3
  | .aluOp => placeField (BitVec.allOnes 2) 12 ||| placeField (BitVec.allOnes 6) 6 ||| placeField (BitVec.allOnes 3) 3

/-- Every position is a field's, a literal one of the row, or a wildcard. -/
theorem fieldMask_or_mask : ∀ t ∈ decoderTable, fieldMask t.cls ||| t.mask = ~~~t.cls.wildcards := by
  decide

/-- The captured fields go back to their positions, over the class's word of 0 fields. -/
theorem encode_instr (c : InstrClass) (w : Word) : encode (c.instr w) = (w &&& fieldMask c) ||| encode (c.instr 0) := by
  cases c with
  | store | load | pass => simp [InstrClass.instr, encode, fieldMask]
  | setLowBits | setTopBits => simp [InstrClass.instr, encode, fieldMask, immField, placeField_extractLsb']
  | copy =>
    simp [InstrClass.instr, encode, fieldMask, targetField, sourceField, placeField_extractLsb',
      BitVec.and_or_distrib_left]
  | aluOp =>
    simp [InstrClass.instr, encode, fieldMask, condField, controlField, jumpField, placeField_extractLsb',
      BitVec.and_or_distrib_left]

theorem encode_instr_zero : ∀ t ∈ decoderTable, encode (t.cls.instr 0) = t.pattern := by
  decide

/-- Settles O2: the row that accepts the word gives back its literal bits and its fields, which are all but the
wildcards. -/
theorem encodeOfDecodeClearsWildcards : Obligations.EncodeOfDecodeClearsWildcards := by
  intro w i hi
  obtain ⟨t, ht, haccepts, rfl⟩ := (decode_eq_some_iff w i).mp hi
  have hliteral : w &&& t.mask = t.pattern := by simpa [Template.accepts] using haccepts
  rw [encode_instr, encode_instr_zero t ht, InstrClass.instr_cls, ← fieldMask_or_mask t ht,
    BitVec.and_or_distrib_left, hliteral]

/-! ## The fields bit by bit -/

theorem getLsbD_field (w : Word) {lo n k : Nat} (h : k < n) : (w.extractLsb' lo n).getLsbD k = w.getLsbD (lo + k) := by
  rw [BitVec.getLsbD_extractLsb', decide_eq_true h, Bool.true_and]

/-- The control bits of an instruction word (R68; the order is D3). -/
theorem control_of_word (w : Word) :
    AluControl.ofBits (controlField w) =
      ⟨w.getLsbD 11, w.getLsbD 10, w.getLsbD 9, w.getLsbD 8, w.getLsbD 7, w.getLsbD 6⟩ := by
  simp [AluControl.ofBits, controlField]

/-- The condition bits of an instruction word (R69; the order is D4). -/
theorem cond_of_word (w : Word) : JumpCond.ofBits (condField w) = ⟨w.getLsbD 13, w.getLsbD 12⟩ := by
  simp [JumpCond.ofBits, condField]

theorem getLsbD_code_regOfCode (w : Word) {lo k : Nat} (h : k < 3) :
    (regOfCode (w.extractLsb' lo 3)).code.getLsbD k = w.getLsbD (lo + k) := by
  rw [code_regOfCode, getLsbD_field w h]

/-- Settles O4: `decode_of_suffix` names the instruction, whose fields are extracted at the positions of R63 to R66. -/
theorem decodedFieldsSitAtTheSpecsBits : Obligations.DecodedFieldsSitAtTheSpecsBits := fun w =>
  ⟨decode_of_suffix, decode_of_suffix,
    fun h => ⟨immField w, decode_of_suffix h, fun _ => getLsbD_field w⟩,
    fun h => ⟨immField w, decode_of_suffix h, fun _ => getLsbD_field w⟩,
    fun h => ⟨regOfCode (targetField w), regOfCode (sourceField w), decode_of_suffix h,
      fun _ => getLsbD_code_regOfCode w, fun _ => getLsbD_code_regOfCode w⟩,
    fun h => ⟨regOfCode (jumpField w), by rw [← cond_of_word, ← control_of_word]; exact decode_of_suffix h,
      fun _ => getLsbD_code_regOfCode w⟩,
    decode_of_reserved⟩

/-- Settles O5: the flipped bits are no literal position of the row and no field's (`decode_flip_wildcards`). -/
theorem wildcardBitsReachNoAction : Obligations.WildcardBitsReachNoAction :=
  fun _ flips _ hi => decode_flip_wildcards hi flips

/-- Settles O6: the words are closed, and the decoder evaluates on each. -/
theorem decoderVectors : Obligations.DecoderVectors := by
  unfold Obligations.DecoderVectors
  decide

end Sys2Proof.Proofs.RoundTrip

/-! PROOFS. Refinement: the model's step, seen through the spec's state tuple (`State.view`), is the Tick that
40_fetch_execute.md R98 writes out. One commuting equation per state operation, one equation of the spec's machine per
phase and per opcode suffix, and the tick assembled from them. -/

namespace Sys2Proof.Proofs.Refinement

open Sys2Proof Sys2Proof.Machine Sys2Proof.Proofs.InstructionRegister

/-! ## Registers by their index -/

theorem regOfIndex_eq_iff : ∀ (q : Fin 8) (c : BitVec 3), regOfIndex q = regOfCode c ↔ q = fieldIndex c := by
  decide

theorem regOfCode_fieldIndex : ∀ c : BitVec 3, regOfIndex (fieldIndex c) = regOfCode c := by
  decide

theorem fieldIndex_ne_zero_iff : ∀ c : BitVec 3, fieldIndex c ≠ 0 ↔ regOfCode c ≠ .r0 := by
  decide

theorem fieldIndex_ne_one_iff : ∀ c : BitVec 3, fieldIndex c ≠ 1 ↔ regOfCode c ≠ .r1 := by
  decide

/-! ## What the view shows -/

@[simp] theorem view_x_fieldIndex (s : State) (c : BitVec 3) : s.view.x (fieldIndex c) = s.reg (regOfCode c) :=
  congrArg s.reg (regOfCode_fieldIndex c)

@[simp] theorem view_phase (s : State) : s.view.phase = s.phase.index := rfl
@[simp] theorem view_x1 (s : State) : s.view.x 1 = s.reg .r1 := rfl
@[simp] theorem view_x2 (s : State) : s.view.x 2 = s.reg .r2 := rfl
@[simp] theorem view_x3 (s : State) : s.view.x 3 = s.reg .r3 := rfl

/-- The view has no outbox. -/
@[simp] theorem view_emit (s : State) (e : Event) : (s.emit e).view = s.view := rfl

theorem view_executing (s : State) (i : Instr) : (executing s i).view = (enterPhase s).view := rfl

/-! ## Each operation commutes with the view -/

theorem view_setReg_regOfCode (s : State) (c : BitVec 3) (v : Word) :
    (s.setReg (regOfCode c) v).view = s.view.setX (fieldIndex c) v := by
  ext1
  case x =>
    funext q
    simp only [State.view, Reference.setX, State.setReg_reg, regOfIndex_eq_iff]
  all_goals rfl

theorem view_setReg_r0 (s : State) (v : Word) : (s.setReg .r0 v).view = s.view.setX 0 v := view_setReg_regOfCode s 0 v
theorem view_setReg_r1 (s : State) (v : Word) : (s.setReg .r1 v).view = s.view.setX 1 v := view_setReg_regOfCode s 1 v
theorem view_setReg_r4 (s : State) (v : Word) : (s.setReg .r4 v).view = s.view.setX 4 v := view_setReg_regOfCode s 4 v
theorem view_setReg_r6 (s : State) (v : Word) : (s.setReg .r6 v).view = s.view.setX 6 v := view_setReg_regOfCode s 6 v
theorem view_setReg_r7 (s : State) (v : Word) : (s.setReg .r7 v).view = s.view.setX 7 v := view_setReg_regOfCode s 7 v

theorem view_materialise (s : State) (a : Word) : (s.materialise a).view = s.view.materialise a := by
  ext1
  case touched =>
    funext b
    exact propext (State.materialised_materialise s a b)
  all_goals rfl

theorem view_memWrite (s : State) (a v : Word) : (s.memWrite a v).view = s.view.memWrite a v := by
  ext1
  case mem =>
    funext b
    exact State.memWrite_word s a b v
  case touched =>
    funext b
    exact propext (State.materialised_memWrite s a v b)
  all_goals rfl

/-! ## The spec's execute phase, by the opcode suffix -/

section Suffix

variable {r : Reference}

theorem execute_of_suffix_store (h : (r.x 1).extractLsb' 0 3 = 0b000#3) :
    r.execute = r.memWrite (r.x 5) (r.x 7) := by
  simp [Reference.execute, h]

theorem execute_of_suffix_load (h : (r.x 1).extractLsb' 0 3 = 0b001#3) :
    r.execute = (r.materialise (r.x 5)).setX 6 (r.mem (r.x 5)) := by
  simp [Reference.execute, h]

theorem execute_of_suffix_setLowBits (h : (r.x 1).extractLsb' 0 3 = 0b010#3) :
    r.execute = r.setX 7 (joinBytes (immField (r.x 1)) (lowByte (r.x 7))) := by
  simp only [Reference.execute, h]; rfl

theorem execute_of_suffix_setTopBits (h : (r.x 1).extractLsb' 0 3 = 0b011#3) :
    r.execute = r.setX 7 (joinBytes (highByte (r.x 7)) (immField (r.x 1))) := by
  simp only [Reference.execute, h]; rfl

theorem execute_of_suffix_copy (h : (r.x 1).extractLsb' 0 3 = 0b100#3) :
    r.execute = if fieldIndex (targetField (r.x 1)) ≠ 1 then
      r.setX (fieldIndex (targetField (r.x 1))) (r.x (fieldIndex (sourceField (r.x 1)))) else r := by
  simp only [Reference.execute, h]; rfl

/-- The ALU-OP case, in the terms of the model's ALU, which is the spec's (`aluIsTheSpecsFunction`). -/
theorem execute_of_suffix_alu (h : (r.x 1).extractLsb' 0 3 = 0b101#3) {c : JumpCond} {k : AluControl}
    (hc : JumpCond.ofBits (condField (r.x 1)) = c) (hk : AluControl.ofBits (controlField (r.x 1)) = k) :
    r.execute =
      if jumpTaken c (regOfCode (jumpField (r.x 1))) (alu k (r.x 2) (r.x 3)) then
        (r.setX 4 (aluOut k (r.x 2) (r.x 3))).setX 0
          ((r.setX 4 (aluOut k (r.x 2) (r.x 3))).x (fieldIndex (jumpField (r.x 1))))
      else r.setX 4 (aluOut k (r.x 2) (r.x 3)) := by
  have halu := Alu.aluIsTheSpecsFunction k (r.x 2) (r.x 3)
  rw [RoundTrip.cond_of_word] at hc
  rw [RoundTrip.control_of_word] at hk
  subst hc hk
  simp only [Reference.execute, h, halu, jumpTaken_iff, ← fieldIndex_ne_zero_iff]
  rfl

theorem execute_of_suffix_reserved (h : (r.x 1).extractLsb' 0 3 = 0b110#3 ∨ (r.x 1).extractLsb' 0 3 = 0b111#3) :
    r.execute = r := by
  rcases h with h | h <;> simp [Reference.execute, h]

end Suffix

theorem suffix_cases : ∀ c : BitVec 3, c = 0b000#3 ∨ c = 0b001#3 ∨ c = 0b010#3 ∨ c = 0b011#3 ∨ c = 0b100#3 ∨
    c = 0b101#3 ∨ c = 0b110#3 ∨ c = 0b111#3 := by
  decide

/-! ## Each instruction commutes with the view -/

theorem instr_of_suffix {w : Word} {i : Instr} {c : BitVec 3} (hi : decode w = some i) (hc : w.extractLsb' 0 3 = c) :
    (suffixClass c).instr w = i :=
  Option.some.inj ((StoreLoad.decode_of_suffix hc).symm.trans hi)

/-- The commuting diagram of an instruction, case by case along the suffixes of R62. -/
theorem view_exec {i : Instr} {s t : State} (hi : decode (s.reg .r1) = some i) (h : exec i s = .next t) :
    t.view = s.view.execute := by
  obtain hc | hc | hc | hc | hc | hc | hc := suffix_cases ((s.reg .r1).extractLsb' 0 3)
  · obtain rfl := instr_of_suffix hi hc
    cases h
    rw [execute_of_suffix_store hc]
    exact view_memWrite s _ _
  · obtain rfl := instr_of_suffix hi hc
    cases h
    rw [execute_of_suffix_load hc, view_setReg_r6, view_materialise]
    rfl
  · obtain rfl := instr_of_suffix hi hc
    cases h
    rw [execute_of_suffix_setLowBits hc]
    exact view_setReg_r7 s _
  · obtain rfl := instr_of_suffix hi hc
    cases h
    rw [execute_of_suffix_setTopBits hc]
    exact view_setReg_r7 s _
  · obtain rfl := instr_of_suffix hi hc
    cases h
    rw [execute_of_suffix_copy hc]
    simp only [view_x1, view_x_fieldIndex, fieldIndex_ne_one_iff, ne_eq, ite_not]
    split_ifs
    · rfl
    · exact view_setReg_regOfCode s _ _
  · obtain rfl := instr_of_suffix hi hc
    cases h
    rw [execute_of_suffix_alu hc rfl rfl]
    simp only [view_x1, view_x2, view_x3, ← view_setReg_r4, view_x_fieldIndex]
    split_ifs
    · exact view_setReg_r0 _ _
    · rfl
  · obtain rfl : Instr.pass = i := by
      rcases hc with hc | hc <;> exact instr_of_suffix hi hc
    cases h
    rw [execute_of_suffix_reserved hc]

/-! ## The spec's tick, by the phase it enters -/

theorem tick_into_fetch {r : Reference} (h : r.phase = 2) :
    r.tick = (Reference.materialise { r with phase := 0 } (r.x 0)).setX 1 (r.mem (r.x 0)) := by
  simp [Reference.tick, h]

theorem tick_into_advance {r : Reference} (h : r.phase = 0) :
    r.tick = Reference.setX { r with phase := 1 } 0 (r.x 0 + 1) := by
  simp [Reference.tick, h]

theorem tick_into_execute {r : Reference} (h : r.phase = 1) :
    r.tick = Reference.execute { r with phase := 2 } := by
  simp [Reference.tick, h]

theorem view_enterPhase {s : State} {p : Phase} (h : s.phase = p) :
    (enterPhase s).view = { s.view with phase := p.succ.index } := by
  subst h
  rfl

/-- The commuting diagram of one tick. -/
theorem view_step {s t : State} (h : step s = .next t) : t.view = s.view.tick := by
  obtain ⟨hp, rfl⟩ | ⟨hp, rfl⟩ | ⟨hp, i, u, hi, hu, rfl⟩ := step_next_cases h
  · rw [tick_into_fetch (by rw [view_phase, hp]; rfl), view_emit, fetch_eq, view_setReg_r1, view_materialise,
      view_enterPhase hp]
    rfl
  · rw [tick_into_advance (by rw [view_phase, hp]; rfl), view_emit, advance_eq, view_setReg_r0, view_enterPhase hp]
    rfl
  · rw [tick_into_execute (by rw [view_phase, hp]; rfl), view_emit, view_exec (s := executing s i) hi hu,
      view_executing, view_enterPhase hp]
    rfl

/-- Settles O14: every tick answers a next state, and `view_step` is its commuting diagram. -/
theorem stepRefinesTheSpecsTick : Obligations.StepRefinesTheSpecsTick := by
  intro s
  obtain ⟨t, h⟩ := Clock.step_eq_next s
  exact ⟨t, h, view_step h⟩

/-- Settles O15: by induction on the number of ticks, one commuting diagram after another. -/
theorem runsRefineTheSpecsMachine : Obligations.RunsRefineTheSpecsMachine := by
  intro n
  induction n with
  | zero => exact fun s => ⟨s, rfl, rfl⟩
  | succ n ih =>
    intro s
    obtain ⟨t, hstep⟩ := Clock.step_eq_next s
    obtain ⟨u, hrun, hview⟩ := ih t
    refine ⟨u, by rw [Cycle.run_succ_of_step n hstep, hrun], ?_⟩
    rw [hview, view_step hstep, Function.iterate_succ_apply]

end Sys2Proof.Proofs.Refinement

/-! PROOFS. Runs of any number of ticks (40_fetch_execute.md R96; 60_exceptions.md R175): they never stop, they emit one
decode notification every three ticks, and what they give is a function of registers, memory words and phase. -/

namespace Sys2Proof.Proofs.Runs

open Sys2Proof Sys2Proof.Machine Sys2Proof.Proofs.InstructionRegister Sys2Proof.Proofs.Clock

/-! ## Nothing stops -/

/-- Settles O12: each of the three phases has its equation (`step_eq_next`). -/
theorem everyTickCompletes : Obligations.EveryTickCompletes := step_eq_next

/-- Settles O13: the runs that the spec's machine is refined by all give a next state. -/
theorem theCoreNeverStops : Obligations.TheCoreNeverStops := by
  intro s n
  obtain ⟨t, hrun, -⟩ := Refinement.runsRefineTheSpecsMachine n s
  exact ⟨t, hrun⟩

/-! ## The notifications of a tick -/

theorem changeEvents_executing (i : Instr) (s : State) : changeEvents i (executing s i) = changeEvents i s := by
  cases i <;> rfl

/-- All notifications of the tick that executes (R173, R174). -/
theorem step_events_of_decode {s t : State} {i : Instr} (hp : s.phase = .advance) (hi : decode (s.reg .r1) = some i)
    (h : step s = .next t) :
    t.events = .decode (s.reg .r1) i.cls (i.cls.captured (s.reg .r1)) :: (changeEvents i s ++ [.tick .execute]) := by
  rw [step_of_decode hp hi, finishTick_eq_next_iff] at h
  obtain ⟨u, hu, rfl⟩ := h
  have hphase : u.phase = .execute := by rw [exec_phase hu, executing_phase, hp]; rfl
  rw [State.emit_events, exec_events hu, changeEvents_executing, hphase]
  simp [executing]

theorem step_events_of_fetch {s t : State} (hp : s.phase = .execute) (h : step s = .next t) :
    t.events = [.register .r1 (s.reg .r1) (s.word (s.reg .r0)), .tick .fetch] := by
  rw [step_into_fetch s hp] at h
  cases h
  rfl

theorem step_events_of_advance {s t : State} (hp : s.phase = .fetch) (h : step s = .next t) :
    t.events = [.register .r0 (s.reg .r0) (s.reg .r0 + 1), .tick .advance] := by
  rw [step_into_advance s hp, advance_eq] at h
  cases h
  rfl

/-- Settles O50: the phase entered determines the phase left, and each has its list. -/
theorem ticksEmitTheSpecsNotifications : Obligations.TicksEmitTheSpecsNotifications := by
  intro s
  obtain ⟨t, h⟩ := step_eq_next s
  refine ⟨t, h, fun ht => step_events_of_fetch (step_leaves h ht) h,
    fun ht => step_events_of_advance (step_leaves h ht) h, fun ht => ⟨_, decode_eq (s.reg .r1), ?_⟩⟩
  exact step_events_of_decode (step_leaves h ht) (decode_eq (s.reg .r1)) h

/-- Settles O7: `step_of_decode`, with the state it runs on and the tick notification written out. -/
theorem stepRunsTheDecodedInstruction : Obligations.StepRunsTheDecodedInstruction := by
  intro s i hp hi _
  have hstate : executing s i = { s with
      phase := .execute, events := [.decode (s.reg .r1) i.cls (i.cls.captured (s.reg .r1))] } := by
    simp [executing, enterPhase, State.emit, hp, Phase.succ]
  rw [step_of_decode hp hi, hstate]
  rfl

/-! ## An instruction every three ticks -/

theorem countP_isDecode_changeEvents (i : Instr) (s : State) : (changeEvents i s).countP Event.isDecode = 0 := by
  cases i with
  | store | load | setLowBits | setTopBits | pass => rfl
  | copy target source => simp only [changeEvents]; split_ifs <;> rfl
  | alu c k j => simp only [changeEvents]; split_ifs <;> rfl

theorem step_countP_isTick {s t : State} (h : step s = .next t) : t.events.countP Event.isTick = 1 := by
  rw [List.countP_eq_length_filter, step_filter_isTick h]
  rfl

theorem step_countP_isDecode {s t : State} (h : step s = .next t) :
    t.events.countP Event.isDecode = if t.phase = .execute then 1 else 0 := by
  rw [step_phase h]
  cases hp : s.phase with
  | fetch => rw [step_events_of_advance hp h]; rfl
  | execute => rw [step_events_of_fetch hp h]; rfl
  | advance =>
    rw [step_events_of_decode hp (decode_eq _) h, List.countP_cons, List.countP_append, countP_isDecode_changeEvents]
    rfl

theorem trace_succ_of_step {s t : State} (n : Nat) (h : step s = .next t) :
    trace (n + 1) s = t.events ++ trace n t := by
  simp only [trace, h]

/-- The number of instructions executed so far grows by one exactly with a tick that enters phase 2. -/
theorem executed_succ (n : Nat) (p : Phase) :
    (if p.succ = .execute then 1 else 0) + (n + (p.succ.number + 1) % 3) / 3 = (n + 1 + (p.number + 1) % 3) / 3 := by
  cases p with
  | fetch => simp [Phase.succ, Phase.number]
  | advance => simp [Phase.succ, Phase.number]; omega
  | execute => simp [Phase.succ, Phase.number]

theorem run_counts (n : Nat) (s : State) : ∃ t, Host.Core.run core n s = .next t ∧
    t.phase.number = (s.phase.number + n) % 3 ∧
    (trace n s).countP Event.isTick = n ∧
    (trace n s).countP Event.isDecode = (n + (s.phase.number + 1) % 3) / 3 := by
  induction n generalizing s with
  | zero =>
    refine ⟨s, rfl, ?_, rfl, ?_⟩ <;> cases s.phase <;> rfl
  | succ n ih =>
    obtain ⟨t, hstep⟩ := step_eq_next s
    obtain ⟨u, hrun, hphase, hticks, hdecodes⟩ := ih t
    have htrace := trace_succ_of_step n hstep
    refine ⟨u, (Cycle.run_succ_of_step n hstep).trans hrun, ?phase, ?ticks, ?decodes⟩
    case phase => rw [hphase, step_phase hstep, succ_number]; omega
    case ticks => rw [htrace, List.countP_append, step_countP_isTick hstep, hticks, Nat.add_comm]
    case decodes =>
      rw [htrace, List.countP_append, step_countP_isDecode hstep, hdecodes, step_phase hstep, executed_succ]

/-- Settles O16: one tick by its lists of notifications, n ticks by induction (`run_counts`). -/
theorem anInstructionEveryThreeTicks : Obligations.AnInstructionEveryThreeTicks := by
  intro s
  obtain ⟨t, h⟩ := step_eq_next s
  have hnumber : t.phase.number = (s.phase.number + 1) % 3 := by rw [step_phase h, succ_number]
  exact ⟨⟨t, h, hnumber, step_countP_isTick h, step_countP_isDecode h⟩, fun n => run_counts n s⟩

/-! ## What a program can observe -/

/-- A tick maps states that a program cannot tell apart to such states. -/
theorem step_sameToPrograms {s s' t t' : State} (hsame : s.sameToPrograms s') (h : step s = .next t)
    (h' : step s' = .next t') : t.sameToPrograms t' := by
  obtain ⟨hx, hphase, hword⟩ := hsame
  have hreg : ∀ r, s.reg r = s'.reg r := Cycle.reg_eq_of_x_eq hx
  have htphase : t.phase = t'.phase := by rw [step_phase h, step_phase h', hphase]
  cases ht : t.phase with
  | fetch =>
    obtain ⟨htx, htword⟩ := step_enters_fetch h ht
    obtain ⟨htx', htword'⟩ := step_enters_fetch h' (htphase ▸ ht)
    exact ⟨by rw [htx, htx', hx, hreg, hword], htphase, fun a => by rw [htword, htword', hword]⟩
  | advance =>
    obtain ⟨htx, htword⟩ := step_enters_advance h ht
    obtain ⟨htx', htword'⟩ := step_enters_advance h' (htphase ▸ ht)
    exact ⟨by rw [htx, htx', hx, hreg], htphase, fun a => by rw [htword, htword', hword]⟩
  | execute =>
    obtain ⟨i, u, hi, hu, htx, htword⟩ := step_enters_execute h ht
    obtain ⟨i', u', hi', hu', htx', htword'⟩ := step_enters_execute h' (htphase ▸ ht)
    obtain rfl : i = i' := Option.some.inj (hi.symm.trans ((congrArg decode (hreg .r1)).trans hi'))
    obtain ⟨hux, huword⟩ := exec_congr hx hword hu hu'
    exact ⟨by rw [htx, htx', hux], htphase, fun a => by rw [htword, htword', huword]⟩

/-- Settles O33: being alike to programs is kept by every tick, so by every run. -/
theorem materialisationIsUnobservable : Obligations.MaterialisationIsUnobservable := by
  intro n
  induction n with
  | zero => exact fun s s' hsame => ⟨s, s', rfl, rfl, hsame⟩
  | succ n ih =>
    intro s s' hsame
    obtain ⟨t, h⟩ := step_eq_next s
    obtain ⟨t', h'⟩ := step_eq_next s'
    rw [Cycle.run_succ_of_step n h, Cycle.run_succ_of_step n h']
    exact ih t t' (step_sameToPrograms hsame h h')

end Sys2Proof.Proofs.Runs

/-! PROOFS. What a tick does to memory and to the registers, said once: its effect on memory is the one access its port
shows (20_memory.md R55), and its registers are those of the write table (10_state.md R23). -/

namespace Sys2Proof.Proofs.TickEffects

open Sys2Proof Sys2Proof.Machine Sys2Proof.Proofs.InstructionRegister Sys2Proof.Proofs.Clock

/-! ## The effect of one access -/

/-- The word at `b` after the access `u`: only a write changes one. -/
def wordAfter (u : PortUse) (s : State) (b : Word) : Word :=
  match u with
  | .idle => s.word b
  | .read _ => s.word b
  | .write a v => if b = a then v else s.word b

/-- The addresses an access materialises (R32, D16). -/
def accessed (u : PortUse) : List Word :=
  match u with
  | .idle => []
  | .read a => [a]
  | .write a _ => [a]

theorem write_of_wordAfter_ne {u : PortUse} {s : State} {b : Word} (h : wordAfter u s b ≠ s.word b) :
    ∃ v, u = .write b v ∧ wordAfter u s b = v := by
  cases u with
  | idle | read a => exact absurd rfl h
  | write a v =>
    by_cases hb : b = a
    · subst hb
      exact ⟨v, rfl, if_pos rfl⟩
    · exact absurd (if_neg hb) h

/-! ## The access of an instruction -/

theorem exec_word {i : Instr} {s t : State} (h : exec i s = .next t) (b : Word) :
    t.word b = wordAfter (instrPort i s) s b := by
  cases i with
  | store => cases h; exact State.memWrite_word s _ b _
  | load | setLowBits | setTopBits | pass => cases h; rfl
  | copy target source =>
    rw [exec_copy] at h
    cases h
    split_ifs <;> rfl
  | alu c k j =>
    rw [exec_alu] at h
    cases h
    split_ifs <;> rfl

theorem exec_materialised {i : Instr} {s t : State} (h : exec i s = .next t) (b : Word) :
    t.materialised b = true ↔ b ∈ accessed (instrPort i s) ∨ s.materialised b = true := by
  cases i with
  | store => cases h; simpa [instrPort, accessed] using State.materialised_memWrite s _ _ b
  | load => cases h; simpa [instrPort, accessed] using State.materialised_materialise s _ b
  | setLowBits | setTopBits | pass => cases h; simp [instrPort, accessed]
  | copy target source =>
    rw [exec_copy] at h
    cases h
    split_ifs <;> simp [instrPort, accessed]
  | alu c k j =>
    rw [exec_alu] at h
    cases h
    split_ifs <;> simp [instrPort, accessed]

/-! ## The access of a tick -/

theorem portUse_of_execute {s : State} (hp : s.phase = .execute) : portUse s = .read (s.reg .r0) := by
  simp [portUse, hp, Phase.succ]

theorem portUse_of_fetch {s : State} (hp : s.phase = .fetch) : portUse s = .idle := by
  simp [portUse, hp, Phase.succ]

theorem portUse_of_advance {s : State} {i : Instr} (hp : s.phase = .advance) (hi : decode (s.reg .r1) = some i) :
    portUse s = instrPort i s := by
  simp [portUse, hp, hi, Phase.succ]

theorem instrPort_executing (i : Instr) (s : State) : instrPort i (executing s i) = instrPort i s := by
  cases i <;> rfl

theorem wordAfter_executing (u : PortUse) (s : State) (i : Instr) (b : Word) :
    wordAfter u (executing s i) b = wordAfter u s b := by
  cases u <;> rfl

theorem step_word {s t : State} (h : step s = .next t) (b : Word) : t.word b = wordAfter (portUse s) s b := by
  obtain ⟨hp, rfl⟩ | ⟨hp, rfl⟩ | ⟨hp, i, u, hi, hu, rfl⟩ := step_next_cases h
  · rw [portUse_of_execute hp]; rfl
  · rw [portUse_of_fetch hp]; rfl
  · rw [State.emit_word, exec_word hu, instrPort_executing, wordAfter_executing, portUse_of_advance hp hi]

theorem step_materialised {s t : State} (h : step s = .next t) (b : Word) :
    t.materialised b = true ↔ b ∈ accessed (portUse s) ∨ s.materialised b = true := by
  obtain ⟨hp, rfl⟩ | ⟨hp, rfl⟩ | ⟨hp, i, u, hi, hu, rfl⟩ := step_next_cases h
  · simpa [portUse_of_execute hp, accessed] using State.materialised_materialise (enterPhase s) (s.reg .r0) b
  · simp [portUse_of_fetch hp, accessed]
  · rw [State.emit_materialised, exec_materialised hu, instrPort_executing, portUse_of_advance hp hi]
    rfl

/-- The only write is a STORE's (R46). -/
theorem portUse_eq_write {s : State} {a v : Word} (h : portUse s = .write a v) :
    s.phase = .advance ∧ decode (s.reg .r1) = some .store ∧ a = s.reg .r5 ∧ v = s.reg .r7 := by
  cases hp : s.phase with
  | execute => simp [portUse_of_execute hp] at h
  | fetch => simp [portUse_of_fetch hp] at h
  | advance =>
    have hi := decode_eq (s.reg .r1)
    rw [portUse_of_advance hp hi] at h
    cases hcls : (suffixClass ((s.reg .r1).extractLsb' 0 3)).instr (s.reg .r1) with
    | store => rw [hcls] at h hi; cases h; exact ⟨rfl, hi, rfl, rfl⟩
    | _ => rw [hcls] at h; cases h

/-- The only read of an execute tick is a LOAD's. -/
theorem load_of_portUse_eq_read {s : State} {a : Word} (hp : s.phase = .advance) (h : portUse s = .read a) :
    decode (s.reg .r1) = some .load ∧ a = s.reg .r5 := by
  have hi := decode_eq (s.reg .r1)
  rw [portUse_of_advance hp hi] at h
  cases hcls : (suffixClass ((s.reg .r1).extractLsb' 0 3)).instr (s.reg .r1) with
  | load => rw [hcls] at h hi; cases h; exact ⟨hi, rfl⟩
  | _ => rw [hcls] at h; cases h

/-- The word a read answers lands in R1 or R6. -/
theorem step_read_lands {s t : State} {a : Word} (h : step s = .next t) (hread : portUse s = .read a) :
    (s.phase = .execute → t.reg .r1 = s.word a) ∧ (s.phase = .advance → t.reg .r6 = s.word a) := by
  constructor
  · intro hp
    have ha : s.reg .r0 = a := by simpa [portUse_of_execute hp] using hread
    rw [← ha, step_r1_of_fetch h (by rw [step_phase h, hp]; rfl)]
  · intro hp
    obtain ⟨hi, rfl⟩ := load_of_portUse_eq_read hp hread
    rw [step_of_decode hp hi, exec_load, finishTick_next] at h
    cases h
    simp [executing]

/-- Settles O32: `step_word` and `step_materialised`, read off for each use of the port. -/
theorem thePortShowsEveryAccess : Obligations.ThePortShowsEveryAccess := by
  intro s
  obtain ⟨t, h⟩ := step_eq_next s
  have hword := step_word h
  have hmaterialised := step_materialised h
  refine ⟨t, h, ?_⟩
  cases hport : portUse s with
  | idle =>
    rw [hport] at hword hmaterialised
    exact ⟨hword, fun a => Bool.eq_iff_iff.mpr (by simpa [accessed] using hmaterialised a)⟩
  | read a =>
    obtain ⟨hr1, hr6⟩ := step_read_lands h hport
    rw [hport] at hword hmaterialised
    exact ⟨hword, fun b => by simpa [accessed] using hmaterialised b, hr1, hr6⟩
  | write a v =>
    rw [hport] at hword hmaterialised
    exact ⟨hword, fun b => by simpa [accessed] using hmaterialised b⟩

/-- Settles O37: a tick adds its access to the materialised cells. -/
theorem materialisedCellsStayMaterialised : Obligations.MaterialisedCellsStayMaterialised :=
  fun _ _ a h ha => (step_materialised h a).mpr (.inr ha)

/-- Settles O29: a word changes only by a write on the port, which is a STORE's. -/
theorem onlyStoreChangesMemory : Obligations.OnlyStoreChangesMemory := by
  intro s t a h hne
  rw [step_word h] at hne
  obtain ⟨v, hport, hv⟩ := write_of_wordAfter_ne hne
  obtain ⟨hp, hi, ha, rfl⟩ := portUse_eq_write hport
  exact ⟨hp, hi, ha, (step_word h a).trans hv⟩

/-! ## The registers a tick writes -/

/-- R23's write table for the execute phase: the registers an instruction may change. -/
def mayWrite (i : Instr) (r : Reg) : Prop :=
  match i with
  | .store => False
  | .load => r = .r6
  | .setLowBits _ => r = .r7
  | .setTopBits _ => r = .r7
  | .copy target _ => r = target ∧ target ≠ .r1
  | .alu _ _ j => r = .r4 ∨ (r = .r0 ∧ j ≠ .r0)
  | .pass => False

theorem eq_of_setReg_ne {s : State} {r q : Reg} {v : Word} (h : (s.setReg q v).reg r ≠ s.reg r) : r = q := by
  by_contra hne
  simp [hne] at h

theorem exec_mayWrite {i : Instr} {s t : State} {r : Reg} (h : exec i s = .next t) (hne : t.reg r ≠ s.reg r) :
    mayWrite i r := by
  cases i with
  | store | pass => cases h; exact hne rfl
  | load => cases h; exact eq_of_setReg_ne (s := s.materialise (s.reg .r5)) hne
  | setLowBits | setTopBits => cases h; exact eq_of_setReg_ne hne
  | copy target source =>
    rw [exec_copy] at h
    cases h
    split_ifs at hne with htarget
    · exact absurd rfl hne
    · exact ⟨eq_of_setReg_ne hne, htarget⟩
  | alu c k j =>
    rw [exec_alu] at h
    cases h
    split_ifs at hne with hjump
    · obtain ⟨hj, -⟩ := (jumpTaken_iff _ _ _).mp hjump
      by_cases hr : r = .r0
      · exact .inr ⟨hr, hj⟩
      · exact .inl (eq_of_setReg_ne (by simpa [hr] using hne))
    · exact .inl (eq_of_setReg_ne hne)

/-- Settles O28: a fetch and an advance are one register write each, and an execute is `exec_mayWrite`. -/
theorem eachTickWritesOnlyItsRegisters : Obligations.EachTickWritesOnlyItsRegisters := by
  intro s t r h hne
  obtain ⟨hp, rfl⟩ | ⟨hp, rfl⟩ | ⟨hp, i, u, hi, hu, rfl⟩ := step_next_cases h
  · rw [State.emit_phase, fetch_eq, State.setReg_phase, State.materialise_phase, enterPhase_phase, hp]
    exact eq_of_setReg_ne (s := (enterPhase s).materialise (s.reg .r0)) hne
  · rw [State.emit_phase, advance_eq, State.setReg_phase, enterPhase_phase, hp]
    exact eq_of_setReg_ne (s := enterPhase s) (by simpa using hne)
  · rw [State.emit_phase, exec_phase hu, executing_phase, hp]
    exact ⟨i, hi, exec_mayWrite hu hne⟩

/-! ## Stores and fetches in a row -/

/-- Settles O31: the STORE keeps R0, and the fetch after it reads the word at R0 as the STORE left it. -/
theorem storeIsSeenByTheNextFetch : Obligations.StoreIsSeenByTheNextFetch := by
  intro s hp hi
  obtain ⟨t, hstore, htp⟩ := Cycle.step_into_phase hp
  obtain ⟨u, hfetch, hup⟩ := Cycle.step_into_phase htp
  obtain ⟨i, v, hi', hv, htx, -⟩ := step_enters_execute hstore htp
  obtain rfl := Option.some.inj (hi.symm.trans hi')
  cases hv
  have htreg : ∀ r, t.reg r = s.reg r := Cycle.reg_eq_of_x_eq htx
  refine ⟨t, u, hstore, hfetch, htreg .r1, ?_⟩
  rw [step_r1_of_fetch hfetch hup, htreg .r0, step_word hstore, portUse_of_advance hp hi]
  simp [instrPort, wordAfter, eq_comm]

theorem exec_policy {i : Instr} {s t : State} (h : exec i s = .next t) : t.policy = s.policy := by
  cases i with
  | store | load | setLowBits | setTopBits | pass => cases h; rfl
  | copy target source =>
    rw [exec_copy] at h
    cases h
    split_ifs <;> rfl
  | alu c k j =>
    rw [exec_alu] at h
    cases h
    split_ifs <;> rfl

theorem step_policy {s t : State} (h : step s = .next t) : t.policy = s.policy := by
  obtain ⟨-, rfl⟩ | ⟨-, rfl⟩ | ⟨-, i, u, -, hu, rfl⟩ := step_next_cases h
  · rfl
  · simp
  · rw [State.emit_policy, exec_policy hu]
    rfl

/-- Settles O11: the fetch puts the word into R1, the advance adds 1 to R0, and the third tick runs R1's instruction. -/
theorem cycleRunsTheWordAtThePointer : Obligations.CycleRunsTheWordAtThePointer := by
  intro s i hp hi
  obtain ⟨t, hfetch, htp⟩ := Cycle.step_into_phase hp
  obtain ⟨u, hadvance, hup⟩ := Cycle.step_into_phase htp
  obtain ⟨w, hexecute, hwp⟩ := Cycle.step_into_phase hup
  obtain ⟨htx, htword⟩ := step_enters_fetch hfetch htp
  obtain ⟨hux, huword⟩ := step_enters_advance hadvance hup
  obtain ⟨j, v, hj, hv, hwx, hwword⟩ := step_enters_execute hexecute hwp
  have ht0 : t.reg .r0 = s.reg .r0 := by simp [Cycle.reg_of_x_eq_set htx]
  have hu1 : u.reg .r1 = s.word (s.reg .r0) := by simp [Cycle.reg_of_x_eq_set hux, Cycle.reg_of_x_eq_set htx]
  obtain rfl : i = j := Option.some.inj (hi.symm.trans (hu1 ▸ hj))
  exact ⟨t, u, hfetch, hadvance, by rw [hux, htx, ht0], fun a => (huword a).trans (htword a), hup,
    (step_policy hadvance).trans (step_policy hfetch), v, w, hv, hexecute, hwx, hwword, hwp⟩

end Sys2Proof.Proofs.TickEffects

/-! PROOFS. Soundness of the state's representation (`State.wf`): it holds at construction, and every instruction, every
tick and every driver operation keeps it, because each is made of operations that do. -/

namespace Sys2Proof.Proofs.Soundness

open Sys2Proof Sys2Proof.Machine Sys2Proof.Proofs.InstructionRegister

theorem construct_wf (p : InitPolicy) : (State.construct p).wf = true := rfl

/-- Settles O34: nothing is listed and nothing materialised, under any policy. -/
theorem constructionIsSound : Obligations.ConstructionIsSound := ⟨construct_wf, construct_wf .zero⟩

theorem exec_wf {i : Instr} {s t : State} (hs : s.wf = true) (h : exec i s = .next t) : t.wf = true := by
  cases i with
  | store => cases h; exact State.memWrite_wf s _ _ hs
  | load => cases h; exact State.setReg_wf _ _ _ (State.materialise_wf s _ hs)
  | setLowBits | setTopBits => cases h; exact State.setReg_wf s _ _ hs
  | pass => cases h; exact hs
  | copy target source =>
    rw [exec_copy] at h
    cases h
    split_ifs <;> simp [hs]
  | alu c k j =>
    rw [exec_alu] at h
    cases h
    split_ifs <;> simp [hs]

theorem executing_wf {s : State} (i : Instr) (hs : s.wf = true) : (executing s i).wf = true :=
  State.emit_wf _ _ (enterPhase_wf s hs)

theorem step_wf {s t : State} (hs : s.wf = true) (h : step s = .next t) : t.wf = true := by
  obtain ⟨-, rfl⟩ | ⟨-, rfl⟩ | ⟨-, i, u, -, hu, rfl⟩ := step_next_cases h
  · exact State.emit_wf _ _ (State.setReg_wf _ _ _ (State.materialise_wf _ _ (enterPhase_wf s hs)))
  · exact State.emit_wf _ _ (State.setReg_wf _ _ _ (enterPhase_wf s hs))
  · exact State.emit_wf u _ (exec_wf (executing_wf i hs) hu)

/-- Settles O35: the inversion of a tick, and for the execute phase `exec_wf`. -/
theorem everyTickKeepsTheStateSound : Obligations.EveryTickKeepsTheStateSound := fun _ _ => step_wf

/-! ## The driver -/

theorem write_wf (target : Target) {s : State} (v : Word) (hs : s.wf = true) : (target.write s v).wf = true := by
  cases target with
  | register r => exact State.setReg_wf s r v hs
  | cell a => exact State.memWrite_wf s a v hs

/-- A checked write answers a next state only for a word that passed its check. -/
theorem writeChecked_eq_next {v : Except Refusal Word} {target : Target} {s t : State}
    (h : writeChecked v target s = .next t) : ∃ w, v = .ok w ∧ t = target.write s.quiet w := by
  cases v with
  | ok w => cases h; exact ⟨w, rfl, rfl⟩
  | error e => cases h

theorem writeChecked_wf {v : Except Refusal Word} {target : Target} {s t : State} (hs : s.wf = true)
    (h : writeChecked v target s = .next t) : t.wf = true := by
  obtain ⟨w, -, rfl⟩ := writeChecked_eq_next h
  exact write_wf target w (State.quiet_wf s hs)

/-- Settles O36: the operations are a construction, a tick, two reads and three checked writes. -/
theorem everyDriverOperationKeepsTheStateSound : Obligations.EveryDriverOperationKeepsTheStateSound := by
  intro op s t hs h
  cases op with
  | construct p => cases h; exact construct_wf p
  | tick => exact step_wf hs h
  | readReg r => cases h; exact State.quiet_wf s hs
  | readMem a => cases h; exact State.materialise_wf _ a (State.quiet_wf s hs)
  | writeReg | writeMem | writeRange => exact writeChecked_wf hs h

end Sys2Proof.Proofs.Soundness

/-! PROOFS. The table of 44_alu.md R138, row by row in its two families, and what follows from its rows; the four
conditions of R141; and the ALU-OP instruction (R140). -/

namespace Sys2Proof.Proofs.AluOp

open Sys2Proof Sys2Proof.Machine Sys2Proof.Proofs.Alu

/-! ## The table -/

/-! `simp` evaluates the complement of 0 to a literal, which the library's lemmas name `BitVec.allOnes`. -/

theorem and_literalOnes (x : Word) : x &&& 0xFFFF#16 = x := BitVec.and_allOnes

theorem literalOnes_and (x : Word) : 0xFFFF#16 &&& x = x := BitVec.allOnes_and

/-- The 32 rows with f = 0: Boolean algebra, each complement of an AND by De Morgan. -/
theorem rows_of_and : ∀ row ∈ aluRows, row.1.getLsbD 1 = false →
    ∀ x y, aluOut (AluControl.ofBits row.1) x y = row.2.1 x y := by
  simp only [aluRows, aluRowsLow, aluRowsMidLow, aluRowsMidHigh, aluRowsHigh, List.forall_mem_append,
    List.forall_mem_cons, List.not_mem_nil, false_imp_iff, implies_true, and_true]
  simp [aluOut, AluControl.ofBits, condition, aluAnd, and_literalOnes, literalOnes_and, BitVec.not_and, BitVec.not_or]

/-- The 32 rows with f = 1: arithmetic modulo 65536, where the complement of v is −v − 1 (R137). -/
theorem rows_of_add : ∀ row ∈ aluRows, row.1.getLsbD 1 = true →
    ∀ x y, aluOut (AluControl.ofBits row.1) x y = row.2.1 x y := by
  simp only [aluRows, aluRowsLow, aluRowsMidLow, aluRowsMidHigh, aluRowsHigh, List.forall_mem_append,
    List.forall_mem_cons, List.not_mem_nil, false_imp_iff, implies_true, and_true]
  simp [aluOut, AluControl.ofBits, condition, aluAdd_eq_add]
  and_intros <;> intros <;> bv_omega

theorem aluOut_of_row {row : AluRow} (h : row ∈ aluRows) (x y : Word) :
    aluOut (AluControl.ofBits row.1) x y = row.2.1 x y := by
  cases hf : row.1.getLsbD 1 with
  | false => exact rows_of_and row h hf x y
  | true => exact rows_of_add row h hf x y

/-- The last column is the function column at 5 and 3. -/
theorem row_printed : ∀ row ∈ aluRows, row.2.1 0x0005 0x0003 = row.2.2 :=
  List.map_inj_left.mp (by decide)

/-- Settles O41: the control column is closed; a row's function is `aluOut_of_row`, its last column `row_printed`. -/
theorem aluComputesTheSpecsTable : Obligations.AluComputesTheSpecsTable := by
  refine ⟨by decide, by decide, fun row h => ⟨aluOut_of_row h, ?printed⟩⟩
  case printed => rw [aluOut_of_row h, row_printed row h]

theorem aluOut_getElem (n : Nat) (h : n < aluRows.length) (x y : Word) :
    aluOut (AluControl.ofBits aluRows[n].1) x y = aluRows[n].2.1 x y :=
  aluOut_of_row (List.getElem_mem h) x y

/-! ## Two's complement -/

theorem aluOut_neg (x y : Word) : aluOut (AluControl.ofBits 0b001111) x y = -x := aluOut_getElem 15 (by decide) x y

theorem aluOut_sub (x y : Word) : aluOut (AluControl.ofBits 0b010011) x y = x - y := aluOut_getElem 19 (by decide) x y

theorem aluOut_zero (x y : Word) : aluOut (AluControl.ofBits 0b101010) x y = 0 := aluOut_getElem 42 (by decide) x y

/-- Settles O42: the two rows compute bit-vector negation and subtraction, which are two's complement; the examples are
closed. -/
theorem negateAndSubtractAreTwosComplement : Obligations.NegateAndSubtractAreTwosComplement := by
  refine ⟨fun x y => ?negate, fun x y => ?subtract, fun x y => ?signed, by decide, by decide, by decide⟩
  case negate => rw [aluOut_neg, uint, BitVec.toNat_neg]; rfl
  case subtract =>
    rw [aluOut_sub, uint, BitVec.toNat_sub, uint, uint]
    have := y.isLt
    omega
  case signed => rw [aluOut_sub, BitVec.toInt_sub]

/-! ## The conditions -/

/-- One condition jumps: the pair of the flags. -/
theorem jumpTaken_iff_eq (c : JumpCond) (j : Reg) (r : AluResult) :
    jumpTaken c j r = true ↔ j ≠ .r0 ∧ c = ⟨r.isZero, r.isNegative⟩ := by
  rw [jumpTaken_iff, JumpCond.mk.injEq]

theorem jumpTaken_r0 (c : JumpCond) (r : AluResult) : jumpTaken c .r0 r = false := by
  simp [jumpTaken]

theorem existsUnique_jumpTaken {j : Reg} (h : j ≠ .r0) (r : AluResult) :
    ∃! c : JumpCond, jumpTaken c j r = true := by
  refine ⟨⟨r.isZero, r.isNegative⟩, (jumpTaken_iff_eq _ j r).mpr ⟨h, rfl⟩, fun c hc => ?_⟩
  obtain ⟨-, heq⟩ := (jumpTaken_iff_eq c j r).mp hc
  exact heq

theorem isNegative_eq_decide (out : Word) : isNegative out = decide (0x8000 ≤ uint out) := by
  rw [Bool.eq_iff_iff, isNegative_iff_le_uint, decide_eq_true_iff]

/-- R141's table: the results for which a pair of flags is the ALU's. -/
theorem flags_iff (out : Word) :
    (isZero out = false ∧ isNegative out = false ↔ 0x0001 ≤ uint out ∧ uint out ≤ 0x7FFF) ∧
    (isZero out = false ∧ isNegative out = true ↔ 0x8001 ≤ uint out) ∧
    (isZero out = true ∧ isNegative out = false ↔ out = 0x0000) ∧
    (isZero out = true ∧ isNegative out = true ↔ out = 0x8000) := by
  have hlt : uint out < 65536 := out.isLt
  refine ⟨?positive, ?negative, ?zero, and_comm.trans (isNegative_and_isZero_iff out)⟩
  case positive => simp only [isZero_eq_decide, isNegative_eq_decide, decide_eq_false_iff_not]; omega
  case negative =>
    simp only [isZero_eq_decide, isNegative_eq_decide, decide_eq_false_iff_not, decide_eq_true_iff]
    omega
  case zero =>
    rw [← BitVec.toNat_inj]
    simp only [isZero_eq_decide, isNegative_eq_decide, decide_eq_false_iff_not, decide_eq_true_iff]
    show _ ↔ uint out = 0
    omega

theorem jumpTaken_ofBits_iff {j : Reg} (h : j ≠ .r0) (c : BitVec 2) (k : AluControl) (x y : Word) :
    jumpTaken (JumpCond.ofBits c) j (alu k x y) = true ↔
      isZero (aluOut k x y) = c.getLsbD 1 ∧ isNegative (aluOut k x y) = c.getLsbD 0 := by
  rw [jumpTaken_iff, and_iff_right h, alu_isZero, alu_isNegative, eq_comm (b := isZero _), eq_comm (b := isNegative _)]
  rfl

/-- Settles O43: the condition that jumps is the pair of the flags, and `flags_iff` says which results have it. -/
theorem exactlyOneConditionJumps : Obligations.ExactlyOneConditionJumps := by
  intro j k x y
  obtain ⟨hpositive, hnegative, hzero, hboth⟩ := flags_iff (aluOut k x y)
  exact ⟨fun h => existsUnique_jumpTaken h _, fun c => jumpTaken_r0 c _, fun h =>
    ⟨(jumpTaken_ofBits_iff h _ k x y).trans hpositive, (jumpTaken_ofBits_iff h _ k x y).trans hnegative,
      (jumpTaken_ofBits_iff h _ k x y).trans hzero, (jumpTaken_ofBits_iff h _ k x y).trans hboth⟩⟩

/-! ## ALU-OP -/

/-- A frame may name more registers than are written. -/
theorem frame_of_subset {s t : State} {written written' : List Reg} {stored accessed : List Word}
    (hsub : written ⊆ written') (h : s.frame t written stored accessed) : s.frame t written' stored accessed := by
  obtain ⟨hreg, hrest⟩ := h
  exact ⟨fun r hr => hreg r fun hmem => hr (hsub hmem), hrest⟩

/-- R140 in the terms of the model's ALU. -/
theorem exec_alu_effect (c : JumpCond) (k : AluControl) (j : Reg) (s : State) : ∃ t, exec (.alu c k j) s = .next t ∧
    t.reg .r4 = aluOut k (s.reg .r2) (s.reg .r3) ∧
    t.reg .r0 = (if jumpTaken c j (alu k (s.reg .r2) (s.reg .r3)) then
      if j = .r4 then aluOut k (s.reg .r2) (s.reg .r3) else s.reg j else s.reg .r0) ∧
    s.frame t [.r4, .r0] [] [] := by
  have hwrite := Frame.setReg_frame s .r4 (aluOut k (s.reg .r2) (s.reg .r3))
  refine ⟨_, exec_alu c k j s, ?_⟩
  by_cases hjump : jumpTaken c j (alu k (s.reg .r2) (s.reg .r3)) = true
  · rw [if_pos hjump, if_pos hjump]
    exact ⟨by simp, by simp, Frame.frame_trans hwrite (Frame.setReg_frame _ .r0 _)⟩
  · rw [if_neg hjump, if_neg hjump]
    exact ⟨by simp, by simp, frame_of_subset (by decide) hwrite⟩

/-- Settles O24: `exec_alu_effect`, with the spec's ALU for the model's (`aluIsTheSpecsFunction`). -/
theorem aluOpWritesR4AndMayJump : Obligations.AluOpWritesR4AndMayJump := by
  intro c k j s
  obtain ⟨t, h, hr4, hr0, hframe⟩ := exec_alu_effect c k j s
  rw [aluIsTheSpecsFunction]
  refine ⟨t, h, hr4, fun hjump => ?_, fun hstay => ?_, hframe⟩
  · rw [hr0, if_pos ((jumpTaken_iff _ _ _).mpr hjump)]
    rfl
  · rw [hr0, if_neg (mt (jumpTaken_iff _ _ _).mp hstay)]

/-- Settles O25: the result 0 has the flags 10, so every jump register but R0 jumps, and R0 stays for R0. -/
theorem zeroJumpIsUnconditional : Obligations.ZeroJumpIsUnconditional := by
  intro j s
  obtain ⟨t, h, hr4, hr0, -⟩ := exec_alu_effect (JumpCond.ofBits 0b10) (AluControl.ofBits 0b101010) j s
  rw [aluOut_zero] at hr4 hr0
  refine ⟨t, h, hr4, ?_⟩
  by_cases hj : j = .r0
  · subst hj
    rw [hr0, jumpTaken_r0]
    rfl
  · rw [hr0, if_pos ((jumpTaken_ofBits_iff hj _ _ _ _).mpr (by rw [aluOut_zero]; decide))]

end Sys2Proof.Proofs.AluOp

/-! PROOFS. The immediates as overwrites of R7's text (42_setbits.md R110 to R112), and PASS (45_pass.md R150). -/

namespace Sys2Proof.Proofs.SetBitsPass

open Sys2Proof Sys2Proof.Machine Sys2Proof.Proofs.InstructionRegister

/-! ## The immediates -/

theorem textOf_joinBytes (hi lo : BitVec 8) : textOf (joinBytes hi lo) = textOf hi ++ textOf lo := by
  refine List.ext_getElem (by simp) fun k hk _ => ?_
  have hk16 : k < 16 := by simpa using hk
  rw [List.getElem_append, textOf_getElem, getLsbD_joinBytes]
  by_cases h8 : k < 8
  · rw [if_neg (show ¬ 16 - 1 - k < 8 by omega), dif_pos (by simpa using h8), textOf_getElem,
      show 16 - 1 - k - 8 = 8 - 1 - k by omega]
  · rw [if_pos (show 16 - 1 - k < 8 by omega), dif_neg (by simpa using h8), textOf_getElem, textOf_length,
      show 8 - 1 - (k - 8) = 16 - 1 - k by omega]

theorem textOf_word (w : Word) : textOf w = textOf (highByte w) ++ textOf (lowByte w) := by
  rw [← textOf_joinBytes, joinBytes_high_low]

theorem partialWrite_high (w : Word) (imm : BitVec 8) :
    partialWrite w 0 (textOf imm) = .ok (joinBytes imm (lowByte w)) := by
  rw [partialWrite, if_pos (by simp), TextForm.wordOfText_eq_ok_iff, textOf_joinBytes, textOf_word w]
  simp

theorem partialWrite_low (w : Word) (imm : BitVec 8) :
    partialWrite w 8 (textOf imm) = .ok (joinBytes (highByte w) imm) := by
  rw [partialWrite, if_pos (by simp), TextForm.wordOfText_eq_ok_iff, textOf_joinBytes, textOf_word w]
  simp

/-- Settles O21: the word each immediate joins is the one whose text is the overwritten one. -/
theorem immediatesAreTextOverwritesOfR7 : Obligations.ImmediatesAreTextOverwritesOfR7 := by
  intro imm s
  refine ⟨_, _, exec_setLowBits imm s, ?high, exec_setTopBits imm s, ?low⟩
  case high => rw [State.setReg_reg, if_pos rfl, partialWrite_high]
  case low => rw [State.setReg_reg, if_pos rfl, partialWrite_low]

/-- Settles O22: in both orders the two bytes of `v` are joined, each instruction keeping the other's byte. -/
theorem twoImmediatesLoadAnyConstant : Obligations.TwoImmediatesLoadAnyConstant := by
  intro v s
  refine ⟨_, _, _, _, exec_setLowBits _ s, exec_setTopBits _ _, exec_setTopBits _ s, exec_setLowBits _ _,
    ?highFirst, ?lowFirst⟩
  case highFirst => simp
  case lowFirst => simp

/-! ## PASS -/

theorem withFetchWord_r1 (s : State) (w : Word) : (s.withFetchWord 16 w.toNat).reg .r1 = w := by
  simp [State.withFetchWord, State.reg]

/-- Settles O26: the placed word decodes to PASS, so the tick adds its notifications to `executing` and no more. -/
theorem passChangesNothing : Obligations.PassChangesNothing := by
  refine ⟨rfl, exec_pass, fun w s hreserved => ?_⟩
  have hp : (s.withFetchWord 16 w.toNat).phase = .advance := rfl
  have hpass : decode ((s.withFetchWord 16 w.toNat).reg .r1) = some .pass := by
    rw [withFetchWord_r1, Encoding.decode_of_reserved hreserved]
  have hstep := step_of_decode hp hpass
  rw [exec_pass, finishTick_next] at hstep
  refine ⟨_, hstep, ?registers, rfl, rfl, rfl, rfl, ?events⟩
  case registers => simp [executing, State.withFetchWord]
  case events => rw [Runs.step_events_of_decode hp hpass hstep, withFetchWord_r1]; rfl

end Sys2Proof.Proofs.SetBitsPass

/-! PROOFS. Construction and boot (10_state.md R33; 70_reset_and_hazards.md R180 to R184): what construction leaves, the
first instruction, and the loading of a program image. -/

namespace Sys2Proof.Proofs.Boot

open Sys2Proof Sys2Proof.Machine Sys2Proof.Proofs.Clock

/-! ## Construction -/

theorem construct_word (p : InitPolicy) (a : Word) : (State.construct p).word a = initialWord p (uint a) := rfl

theorem initialWord_uint {p : InitPolicy} (h : p ≠ .zero) (a : Word) : initialWord p (uint a) = Config.initMem a := by
  have haddr : BitVec.ofNat 16 (uint a) = a := by simp [uint]
  cases p with
  | zero => exact absurd rfl h
  | undefined | random => rw [initialWord, haddr]

theorem construct_reg (p : InitPolicy) {r : Reg} (h : r ≠ .r0) : (State.construct p).reg r = initialRegister p r := by
  cases r with
  | r0 => exact absurd rfl h
  | _ => rfl

theorem initialRegister_of_ne_zero {p : InitPolicy} (h : p ≠ .zero) (r : Reg) :
    initialRegister p r = Config.initReg r := by
  cases p with
  | zero => exact absurd rfl h
  | undefined | random => rfl

theorem construct_zero_reg (r : Reg) : (State.construct .zero).reg r = 0 := by
  by_cases h : r = .r0
  · subst h; rfl
  · rw [construct_reg .zero h]; rfl

/-- Settles O46: R0 and the phase are the same under every policy; the rest is its initial value. -/
theorem constructionLeavesTheResetValues : Obligations.ConstructionLeavesTheResetValues := by
  refine ⟨fun p => ⟨rfl, rfl, fun _ => rfl⟩, construct_zero_reg, fun _ => rfl,
    fun p hp => ⟨fun r hr => ?_, fun a => ?_⟩⟩
  · rw [construct_reg p hr, initialRegister_of_ne_zero hp]
  · rw [construct_word, initialWord_uint hp]

/-- Settles O47: `State.reset` is `State.construct .zero` by definition. -/
theorem resetHoldsTheZeroPolicysValues : Obligations.ResetHoldsTheZeroPolicysValues :=
  ⟨rfl, construct_zero_reg, fun _ => rfl, rfl⟩

/-! ## The first instruction -/

/-- A state about to execute is the one placed for the word its R1 holds. -/
theorem eq_withFetchWord {s : State} (hp : s.phase = .advance) : s = s.withFetchWord 16 (s.reg .r1).toNat := by
  simp [State.withFetchWord, placeFetchWord, State.reg, ← hp]

/-- The registers after the first two ticks of a cycle. -/
theorem reg_after_fetch_and_advance {s u : State}
    (hx : u.x = (s.x.set .r1 (s.word (s.reg .r0))).set .r0 (s.reg .r0 + 1)) (r : Reg) :
    u.reg r = if r = .r0 then s.reg .r0 + 1 else if r = .r1 then s.word (s.reg .r0) else s.reg r := by
  rw [State.reg, hx, RegFile.get_set, RegFile.get_set]
  rfl

/-- Settles O48: the cycle from the constructed state with `w` written, whose pointer is 0. -/
theorem theFirstInstructionIsTheWordAtAddressZero : Obligations.TheFirstInstructionIsTheWordAtAddressZero := by
  intro p w
  have hi := decode_eq (((State.construct p).quiet.memWrite 0 w).word 0)
  have hw : ((State.construct p).quiet.memWrite 0 w).word 0 = w := by simp
  obtain ⟨b, c, hb, hc, hcx, -, hphase, -, d, e, hd, he, hex, heword, -⟩ :=
    TickEffects.cycleRunsTheWordAtThePointer _ _ rfl hi
  rw [hw] at hi
  have hreg := reg_after_fetch_and_advance hcx
  have hr1 : c.reg .r1 = w := (hreg .r1).trans hw
  refine ⟨_, b, c, MemoryAccess.drive_writeMem_bits 0 w _, hb, hc, hreg .r0, hr1, ?placed, fun r h0 h1 => ?others,
    _, d, e, hi, ?run, he, hex, heword⟩
  case placed => rw [← hr1]; exact eq_withFetchWord hphase
  case others => rw [hreg, if_neg h0, if_neg h1]; rfl
  case run => rwa [hw] at hd

/-! ## Loading an image -/

theorem resolve_textOf (w : Word) : (WordArg.text (textOf w)).resolve = .ok w :=
  (TextForm.wordOfText_eq_ok_iff _ w).mpr rfl

theorem drive_writeMem_textOf (a w : Word) (s : State) :
    drive (.writeMem a (.text (textOf w))) s = .next (s.quiet.memWrite a w) := by
  rw [drive, resolve_textOf]
  rfl

theorem driveAll_cons_of_drive {op : DriverOp} {ops : List DriverOp} {s t : State} (h : drive op s = .next t) :
    driveAll (op :: ops) s = driveAll ops t := by
  simp only [driveAll, h]

/-- Loading an image from address `a` puts line k at `a` + k and leaves every other cell, the registers, the phase and
the policy. -/
theorem load_effect (words : List Word) (a : Nat) (s : State) (hfit : a + words.length ≤ 65536) :
    ∃ t, driveAll (loadOps a (words.map fun w => textOf w)) s = .next t ∧
      (∀ k, k < words.length → some (t.word (BitVec.ofNat 16 (a + k))) = words[k]?) ∧
      (∀ b, (uint b < a ∨ a + words.length ≤ uint b) → t.word b = s.word b) ∧
      t.x = s.x ∧ t.phase = s.phase ∧ t.policy = s.policy := by
  induction words generalizing a s with
  | nil => exact ⟨s, rfl, fun k hk => absurd hk (Nat.not_lt_zero k), fun _ _ => rfl, rfl, rfl, rfl⟩
  | cons w rest ih =>
    rw [List.length_cons] at hfit
    obtain ⟨t, hrun, hlines, hothers, hx, hphase, hpolicy⟩ :=
      ih (a + 1) (s.quiet.memWrite (BitVec.ofNat 16 a) w) (by omega)
    have ha : uint (BitVec.ofNat 16 a) = a := by
      rw [uint, BitVec.toNat_ofNat, Nat.mod_eq_of_lt (by omega)]
    refine ⟨t, (driveAll_cons_of_drive (drive_writeMem_textOf _ w s)).trans hrun, fun k hk => ?lines,
      fun b hb => ?others, hx, hphase, hpolicy⟩
    case lines =>
      cases k with
      | zero => rw [Nat.add_zero, hothers _ (.inl (by omega))]; simp
      | succ k =>
        rw [show a + (k + 1) = a + 1 + k by omega]
        exact hlines k (by simpa using hk)
    case others =>
      rw [List.length_cons] at hb
      have hne : b ≠ BitVec.ofNat 16 a := by rintro rfl; omega
      rw [hothers b (by omega), State.memWrite_word, if_neg hne, State.quiet_word]

/-- Settles O49: the image is loaded into the constructed state, from address 0. -/
theorem bootLoadsTheImageFromAddressZero : Obligations.BootLoadsTheImageFromAddressZero := by
  intro p words s hfit
  obtain ⟨t, hrun, hlines, hothers, hx, hphase, hpolicy⟩ := load_effect words 0 (State.construct p) (by omega)
  have hboot : driveAll (bootOps p (words.map fun w => textOf w)) s = .next t :=
    (driveAll_cons_of_drive rfl).trans hrun
  refine ⟨t, hboot, fun k hk => ?lines, fun a ha => ?others, hx, hphase, hpolicy⟩
  case lines => simpa using hlines k hk
  case others => rw [hothers a (.inr (by omega)), construct_word]

end Sys2Proof.Proofs.Boot

/-! PROOFS. The numeric views of a word: sign and magnitude (00_scope.md R9), and the driver's integer conversions
(60_exceptions.md R172). -/

namespace Sys2Proof.Proofs.Numbers

open Sys2Proof Sys2Proof.Machine

/-! ## The sign-magnitude view -/

/-- The magnitude: bits 14 to 0 (R9). -/
def magnitude (w : Word) : Nat := (w.extractLsb' 0 15).toNat

theorem smag_eq (w : Word) : smag w = (if w.getLsbD 15 then -1 else 1) * (magnitude w : Int) := by
  unfold smag magnitude
  split_ifs <;> simp

theorem magnitude_lt (w : Word) : magnitude w < 32768 := (w.extractLsb' 0 15).isLt

theorem magnitude_eq_sum (w : Word) : magnitude w = ∑ i ∈ Finset.range 15, (w.getLsbD i).toNat * 2 ^ i := by
  rw [magnitude, TextForm.toNat_eq_sum_getLsbD]
  refine Finset.sum_congr rfl fun i hi => ?_
  rw [RoundTrip.getLsbD_field w (Finset.mem_range.mp hi), Nat.zero_add]

theorem isZero_iff_magnitude (w : Word) : isZero w = true ↔ magnitude w = 0 := by
  rw [isZero, beq_iff_eq, ← BitVec.toNat_inj]
  rfl

theorem smag_eq_zero_iff (w : Word) : smag w = 0 ↔ isZero w = true := by
  rw [isZero_iff_magnitude, smag_eq]
  split_ifs <;> simp

/-- Settles O52: the sum is the magnitude's, and the magnitude is 0 for the two zeros alone. -/
theorem signMagnitudeView : Obligations.SignMagnitudeView := by
  intro w
  have hlt := magnitude_lt w
  refine ⟨?sum, ?lower, ?upper, (smag_eq_zero_iff w).trans (Alu.isZero_iff w), (smag_eq_zero_iff w).symm, ?sign⟩
  case sum => rw [smag_eq, magnitude_eq_sum]; push_cast; rfl
  case lower => rw [smag_eq]; split_ifs <;> omega
  case upper => rw [smag_eq]; split_ifs <;> omega
  case sign =>
    intro hneg
    by_contra hsign
    have hbit : w.getLsbD 15 = false := by simpa [isNegative] using hsign
    rw [smag_eq, hbit] at hneg
    simp at hneg
    omega

/-! ## The integer conversions -/

theorem fromSigned_ok {n : Int} (h : n.natAbs ≤ 32767) :
    fromSigned n = .ok (BitVec.ofBool (decide (n < 0)) ++ BitVec.ofNat 15 n.natAbs) := by
  rw [fromSigned, if_neg (by omega)]

/-- Bit 15 is the sign, the rest the magnitude. -/
theorem signed_fields (sign : Bool) {m : Nat} (h : m ≤ 32767) :
    (BitVec.ofBool sign ++ BitVec.ofNat 15 m : Word).getLsbD 15 = sign ∧
      magnitude (BitVec.ofBool sign ++ BitVec.ofNat 15 m) = m := by
  have happend : ∀ i, (BitVec.ofBool sign ++ BitVec.ofNat 15 m : Word).getLsbD i =
      if i < 15 then (BitVec.ofNat 15 m).getLsbD i else (BitVec.ofBool sign).getLsbD (i - 15) :=
    fun i => BitVec.getLsbD_append
  have hlow : (BitVec.ofBool sign ++ BitVec.ofNat 15 m : Word).extractLsb' 0 15 = BitVec.ofNat 15 m := by
    apply BitVec.eq_of_getLsbD_eq
    intro i hi
    rw [RoundTrip.getLsbD_field _ hi, Nat.zero_add, happend, if_pos hi]
  constructor
  · rw [happend, if_neg (by decide)]
    simp
  · rw [magnitude, hlow, BitVec.toNat_ofNat, Nat.mod_eq_of_lt (by omega)]

theorem fromUnsigned_natCast (n : Nat) : fromUnsigned n = .ok (BitVec.ofNat 16 n) := by
  rw [fromUnsigned, if_neg (by omega), Int.toNat_natCast]

/-- Settles O53: the word of `fromSigned` has the sign and the magnitude of the integer, that of `fromUnsigned` its
residue, which 65536 more does not change. -/
theorem driverIntegerConversions : Obligations.DriverIntegerConversions := by
  refine ⟨fun n h => ?signed, fun n h => if_pos h, fun n => ?unsigned, fun n h => if_pos h⟩
  case signed =>
    obtain ⟨hsign, hmagnitude⟩ := signed_fields (decide (n < 0)) h
    refine ⟨_, fromSigned_ok h, ?_, by rw [hsign, decide_eq_true_iff]⟩
    rw [smag_eq, hsign, hmagnitude]
    simp only [decide_eq_true_eq]
    split_ifs <;> omega
  case unsigned =>
    refine ⟨_, fromUnsigned_natCast n, BitVec.toNat_ofNat n 16, ?_⟩
    have hcast : (65536 + (n : Int)) = ((65536 + n : Nat) : Int) := by push_cast; rfl
    rw [hcast, fromUnsigned_natCast]
    congr 1
    apply BitVec.eq_of_toNat_eq
    simp

end Sys2Proof.Proofs.Numbers

/-! PROOFS. The driver (60_exceptions.md R170 to R172): the texts it accepts, its writes and partial writes, its reads,
and what the next tick sees of a write. -/

namespace Sys2Proof.Proofs.Driver

open Sys2Proof Sys2Proof.Machine Sys2Proof.Proofs.Clock

/-! ## The texts the driver accepts -/

/-- Binary characters only. -/
def binary (t : Text) : Prop := ∀ c ∈ t, c = '0' ∨ c = '1'

theorem exists_textOf_eq_of_binary {t : Text} {n : Nat} (hlength : t.length = n) (h : binary t) :
    ∃ v : BitVec n, textOf v = t := by
  subst hlength
  induction t with
  | nil => exact ⟨0, rfl⟩
  | cons c cs ih =>
    obtain ⟨hc, hcs⟩ := List.forall_mem_cons.mp h
    obtain ⟨v, hv⟩ := ih hcs
    obtain ⟨b, rfl⟩ : ∃ b, TextForm.charOfBit b = c := by
      rcases hc with rfl | rfl
      · exact ⟨false, rfl⟩
      · exact ⟨true, rfl⟩
    exact ⟨BitVec.cons b v, by rw [TextForm.textOf_cons, hv]⟩

/-- The texts of words: 16 binary characters. -/
theorem exists_word_iff (t : Text) : (∃ w : Word, textOf w = t) ↔ t.length = 16 ∧ binary t := by
  constructor
  · rintro ⟨w, rfl⟩
    exact ⟨textOf_length w, mem_textOf w⟩
  · rintro ⟨hlength, hbinary⟩
    exact exists_textOf_eq_of_binary hlength hbinary

theorem wordOfText_error {t : Text} (h : ¬ (t.length = 16 ∧ binary t)) :
    wordOfText t = .error .malformedBitString := by
  rw [← exists_word_iff] at h
  cases ht : parseBits 16 t with
  | none => rw [wordOfText, ht]
  | some w => exact absurd ⟨w, (TextForm.parseBits_eq_some_iff t w).mp ht⟩ h

/-! ## Writes -/

theorem writeChecked_ok {v : Except Refusal Word} {w : Word} (h : v = .ok w) (target : Target) (s : State) :
    writeChecked v target s = .next (target.write s.quiet w) := by
  subst h
  rfl

theorem writeChecked_error {v : Except Refusal Word} {e : Refusal} (h : v = .error e) (target : Target) (s : State) :
    writeChecked v target s = .refused e := by
  subst h
  rfl

theorem not_word_text {t : Text} (h : t.length ≠ 16 ∨ ∃ c ∈ t, c ≠ '0' ∧ c ≠ '1') :
    ¬ (t.length = 16 ∧ binary t) := by
  rintro ⟨hlength, hbinary⟩
  rcases h with h | ⟨c, hc, h0, h1⟩
  · exact h hlength
  · exact (hbinary c hc).elim h0 h1

/-- Settles O55: an accepted argument is one `setReg` or one `memWrite` on the quiet state, another text one refusal. -/
theorem driverWritesStoreTheResolvedWord : Obligations.DriverWritesStoreTheResolvedWord := by
  refine fun r a s => ⟨fun v w hv => ⟨?register, ?cell⟩, fun text htext => ?refused⟩
  case register =>
    refine ⟨_, writeChecked_ok hv (.register r) s, ?_, fun q hq => ?_, rfl, rfl, rfl⟩
    · simp [DriverOp.answer, Target.write]
    · simp [Target.write, hq]
  case cell =>
    refine ⟨_, writeChecked_ok hv (.cell a) s, ?_, fun b hb => ?_, rfl, rfl, rfl⟩
    · simp [Target.write]
    · simp [Target.write, hb]
  case refused =>
    have herror := wordOfText_error (not_word_text htext)
    exact ⟨writeChecked_error herror (.register r) s, writeChecked_error herror (.cell a) s⟩

/-! ## Partial writes -/

/-- The characters of `old` with those from `offset` on replaced by `t` (R172). -/
def patched (old : Word) (offset : Nat) (t : Text) : Text :=
  (textOf old).take offset ++ t ++ (textOf old).drop (offset + t.length)

theorem patched_length {offset : Nat} {t : Text} (old : Word) (h : offset + t.length ≤ 16) :
    (patched old offset t).length = 16 := by
  simp [patched]
  omega

theorem patched_binary_iff (old : Word) (offset : Nat) (t : Text) : binary (patched old offset t) ↔ binary t := by
  constructor
  · exact fun h c hc => h c (by simp [patched, hc])
  · intro h c hc
    rcases (by simpa [patched, or_assoc] using hc :
      c ∈ (textOf old).take offset ∨ c ∈ t ∨ c ∈ (textOf old).drop (offset + t.length)) with hc | hc | hc
    · exact mem_textOf old c (List.mem_of_mem_take hc)
    · exact h c hc
    · exact mem_textOf old c (List.mem_of_mem_drop hc)

theorem patched_getElem? {offset : Nat} {t : Text} (old : Word) (h : offset + t.length ≤ 16) (k : Nat) :
    (patched old offset t)[k]? = patchedChar old offset t k := by
  have htake : ((textOf old).take offset).length = offset := by simp; omega
  rw [patched, patchedChar, List.append_assoc, List.getElem?_append, htake]
  by_cases hlow : k < offset
  · rw [if_pos hlow, if_neg (by omega), List.getElem?_take_of_lt hlow]
  · rw [if_neg hlow, List.getElem?_append]
    by_cases hrun : k - offset < t.length
    · rw [if_pos hrun, if_pos (by omega)]
    · rw [if_neg hrun, if_neg (by omega), List.getElem?_drop,
        show offset + t.length + (k - offset - t.length) = k by omega]

theorem partialWrite_ok {offset : Nat} {t : Text} (h : writable offset t) (old : Word) :
    ∃ w, partialWrite old offset t = .ok w ∧ textOf w = patched old offset t := by
  obtain ⟨hbound, hbinary⟩ := h
  have hpatched := (patched_binary_iff old offset t).mpr hbinary
  obtain ⟨w, hw⟩ := (exists_word_iff _).mpr ⟨patched_length old hbound, hpatched⟩
  exact ⟨w, (if_pos hbound).trans ((TextForm.wordOfText_eq_ok_iff _ w).mpr hw), hw⟩

theorem partialWrite_error {offset : Nat} {t : Text} (h : ¬ writable offset t) (old : Word) :
    partialWrite old offset t = .error .malformedBitString := by
  by_cases hbound : offset + t.length ≤ 16
  · refine (if_pos hbound).trans (wordOfText_error fun ⟨_, hbinary⟩ => h ⟨hbound, ?_⟩)
    exact (patched_binary_iff old offset t).mp hbinary
  · exact if_neg hbound

/-! ### What a written target holds, and what stays -/

@[simp] theorem word_write (target : Target) (s : State) (v : Word) : target.word (target.write s v) = v := by
  cases target <;> simp [Target.word, Target.write]

theorem write_reg {target : Target} {r : Reg} (h : target ≠ .register r) (s : State) (v : Word) :
    (target.write s v).reg r = s.reg r := by
  cases target with
  | register q =>
    have hne : r ≠ q := fun he => h (by rw [he])
    simp [Target.write, hne]
  | cell a => rfl

theorem write_word {target : Target} {a : Word} (h : target ≠ .cell a) (s : State) (v : Word) :
    (target.write s v).word a = s.word a := by
  cases target with
  | register q => rfl
  | cell b =>
    have hne : a ≠ b := fun he => h (by rw [he])
    simp [Target.write, hne]

theorem write_phase (target : Target) (s : State) (v : Word) : (target.write s v).phase = s.phase := by
  cases target <;> rfl

/-- Settles O54: the word written is the one whose text is the patched one, and there is one exactly if the text is
writable. -/
theorem partialWritesPatchTheTextForm : Obligations.PartialWritesPatchTheTextForm := by
  refine fun target offset text s => ⟨fun h => ?accepted, fun h => ?refused⟩
  case accepted =>
    obtain ⟨w, hw, htext⟩ := partialWrite_ok h (target.word s)
    obtain ⟨hbound, -⟩ := h
    refine ⟨_, writeChecked_ok hw target s, fun k _ => ?_, fun r hr => write_reg hr _ w,
      fun a ha => write_word ha _ w, write_phase target _ w⟩
    rw [word_write, htext, patched_getElem? _ hbound]
  case refused => exact writeChecked_error (partialWrite_error h _) target s

/-! ## Reads -/

/-- Settles O56: a read empties the outbox, and of memory it materialises the cell. -/
theorem driverReadsAreInvisibleToPrograms : Obligations.DriverReadsAreInvisibleToPrograms := by
  refine fun r a s => ⟨⟨s.quiet, rfl, ⟨rfl, rfl, fun _ => rfl⟩, rfl, rfl, rfl⟩,
    s.quiet.materialise a, rfl, ⟨rfl, rfl, fun _ => rfl⟩, ?_, rfl, rfl⟩
  exact (State.materialised_materialise s.quiet a a).mpr (.inl rfl)

/-! ## What the next tick sees -/

/-- Settles O57: each write leaves the phase, so the next tick is the one of the phase in question, on the written
state. -/
theorem theNextTickSeesTheDriversWrite : Obligations.TheNextTickSeesTheDriversWrite := by
  intro s v
  refine ⟨fun hp => ?instruction, fun hp => ?pointerFetched, fun hp => ?pointerAdvanced, fun hp => ?cell⟩
  case instruction =>
    have hdrive := InstructionRegister.drive_writeReg_bits .r1 v s
    obtain ⟨w, hw, hwp⟩ := Cycle.step_into_phase (s := s.quiet.setReg .r1 v) hp
    obtain ⟨i, u, hi, hu, hx, hword⟩ := step_enters_execute hw hwp
    exact ⟨_, i, u, w, hdrive, by simpa using hi, hu, hw, hx, hword⟩
  case pointerFetched =>
    obtain ⟨u, hu, hr1⟩ := Copy.step_jump (s := s.quiet) hp v
    exact ⟨_, u, InstructionRegister.drive_writeReg_bits .r0 v s, hu, hr1⟩
  case pointerAdvanced =>
    refine ⟨_, _, InstructionRegister.drive_writeReg_bits .r0 v s, step_into_advance _ hp, ?_⟩
    simp
  case cell =>
    obtain ⟨u, hu, hr1⟩ := StoreLoad.step_memWrite_at_pointer (s := s.quiet) hp v
    exact ⟨_, u, MemoryAccess.drive_writeMem_bits _ v s, hu, hr1⟩

end Sys2Proof.Proofs.Driver

/-! PROOFS. The assembler (30_encoding.md R75 to R88): the words of a line, the generic mnemonics, the aliases, and the
size of what a compile gives. -/

namespace Sys2Proof.Proofs.Assembler

open Sys2Proof Sys2Proof.Machine

/-! ## The words of a line (R78) -/

/-- A word of a line: not empty, and without white space. -/
def isToken (t : Text) : Bool := !t.isEmpty && t.all fun c => !isBlank c

theorem isToken_iff (t : Text) : isToken t = true ↔ t ≠ [] ∧ ∀ c ∈ t, isBlank c = false := by
  simp [isToken]

/-- A run of non-blank characters joins the current run. -/
theorem tokensFrom_append {t : Text} (h : ∀ c ∈ t, isBlank c = false) (cur rest : Text) :
    tokensFrom cur (t ++ rest) = tokensFrom (t.reverse ++ cur) rest := by
  induction t generalizing cur with
  | nil => rfl
  | cons c cs ih =>
    obtain ⟨hc, hcs⟩ := List.forall_mem_cons.mp h
    rw [List.cons_append, tokensFrom, if_neg (by simp [hc]), ih hcs]
    simp

theorem tokens_of_isToken {t : Text} (h : isToken t = true) : tokens t = [t] := by
  obtain ⟨hne, hblank⟩ := (isToken_iff t).mp h
  have hrun := tokensFrom_append hblank [] []
  rw [List.append_nil, List.append_nil] at hrun
  rw [tokens, hrun]
  simp [tokensFrom, hne]

theorem tokens_cons {t : Text} (h : isToken t = true) (rest : Text) :
    tokens (t ++ ' ' :: rest) = t :: tokens rest := by
  obtain ⟨hne, hblank⟩ := (isToken_iff t).mp h
  rw [tokens, tokensFrom_append hblank, tokensFrom, if_pos (by decide)]
  simp [tokens, hne]

/-- Words joined by single separators are found again. -/
theorem tokens_joinTokens : ∀ {ts : List Text}, (∀ t ∈ ts, isToken t = true) → tokens (joinTokens ts) = ts
  | [], _ => rfl
  | [t], h => tokens_of_isToken (h t List.mem_cons_self)
  | t :: u :: rest, h => by
    obtain ⟨ht, hrest⟩ := List.forall_mem_cons.mp h
    rw [joinTokens, tokens_cons ht, tokens_joinTokens hrest]
    simp

theorem isToken_textOf {n : Nat} (v : BitVec (n + 1)) : isToken (textOf v) = true := by
  rw [isToken_iff]
  refine ⟨fun h => by simpa using congrArg List.length h, fun c hc => ?_⟩
  rcases mem_textOf v c hc with rfl | rfl <;> rfl

/-! ## The generic mnemonics (R85) -/

theorem isToken_mnemonicOf (i : Instr) : ∀ t ∈ mnemonicOf i, isToken t = true := by
  cases i with
  | store | load | pass => decide
  | setLowBits imm | setTopBits imm => simp only [mnemonicOf, List.forall_mem_cons, isToken_textOf]; decide
  | copy t s => simp only [mnemonicOf, List.forall_mem_cons, isToken_textOf]; decide
  | alu c k j => simp only [mnemonicOf, List.forall_mem_cons, isToken_textOf]; decide

theorem genericInstr_mnemonicOf (i : Instr) : genericInstr (mnemonicOf i) = some i := by
  cases i <;> simp [genericInstr, mnemonicOf]

theorem assembleLine_of_assembleTokens {line : Text} {i : Instr} (h : assembleTokens (tokens line) = some i) :
    assembleLine line = .ok (encode i) := by
  rw [assembleLine, h]

/-- Settles O58: the line's words are the mnemonic's, and its fields parse to the operands. -/
theorem genericMnemonicsAssembleToTheEncoding : Obligations.GenericMnemonicsAssembleToTheEncoding := by
  intro i
  apply assembleLine_of_assembleTokens
  rw [tokens_joinTokens (isToken_mnemonicOf i), assembleTokens, genericInstr_mnemonicOf]

/-! ## The aliases (R86) -/

theorem aluLine_computes {line : Text} {x y v : Word} {k : BitVec 6}
    (hline : assembleLine line = .ok (encode (.alu (JumpCond.ofBits 0) (AluControl.ofBits k) .r0)))
    (hout : aluOut (AluControl.ofBits k) x y = v) :
    ∃ w c k, assembleLine line = .ok w ∧ decode w = some (.alu c k .r0) ∧ aluOut k x y = v :=
  ⟨_, _, _, hline, RoundTrip.decode_encode _, hout⟩

/-- Settles O59: each line evaluates to the ALU-OP of its control value, whose row of R138's table is the function
named. -/
theorem aliasesComputeWhatTheyName : Obligations.AliasesComputeWhatTheyName := by
  intro x y
  simp only [List.forall_mem_cons]
  exact ⟨aluLine_computes (k := 0b101010) (by decide) (AluOp.aluOut_getElem 42 (by decide) x y),
    aluLine_computes (k := 0b111111) (by decide) (AluOp.aluOut_getElem 63 (by decide) x y),
    aluLine_computes (k := 0b000000) (by decide) (AluOp.aluOut_getElem 0 (by decide) x y),
    aluLine_computes (k := 0b010101) (by decide) (AluOp.aluOut_getElem 21 (by decide) x y),
    aluLine_computes (k := 0b001101) (by decide) (AluOp.aluOut_getElem 13 (by decide) x y),
    aluLine_computes (k := 0b110001) (by decide) (AluOp.aluOut_getElem 49 (by decide) x y),
    aluLine_computes (k := 0b001111) (by decide) (AluOp.aluOut_getElem 15 (by decide) x y),
    aluLine_computes (k := 0b110011) (by decide) (AluOp.aluOut_getElem 51 (by decide) x y),
    aluLine_computes (k := 0b000010) (by decide) (AluOp.aluOut_getElem 2 (by decide) x y),
    aluLine_computes (k := 0b000010) (by decide) (AluOp.aluOut_getElem 2 (by decide) x y),
    aluLine_computes (k := 0b000010) (by decide) (AluOp.aluOut_getElem 2 (by decide) x y),
    aluLine_computes (k := 0b010011) (by decide) (AluOp.aluOut_getElem 19 (by decide) x y), nofun⟩

/-! ## The size of a compile (R75, R88) -/

theorem normalise_length (lines : List Text) : (normalise lines).length ≤ lines.length := by
  simpa [normalise] using List.length_filter_le (fun l => !l.isEmpty) (lines.map fun l => joinTokens (tokens l))

theorem explicitLabels_length {syms syms' : Symbols} {lines out : List Text}
    (h : explicitLabels syms lines = .ok (syms', out)) : out.length ≤ lines.length := by
  induction lines generalizing syms out with
  | nil => cases h; rfl
  | cons line rest ih =>
    rw [explicitLabels] at h
    split at h
    · split at h
      · split at h
        · exact (ih h).trans (Nat.le_succ _)
        · cases h
      · split at h
        · cases h; exact Nat.succ_le_succ (ih ‹_›)
        · cases h
    · split at h
      · cases h; exact Nat.succ_le_succ (ih ‹_›)
      · cases h

theorem positionalLabels_length {syms syms' : Symbols} {count : Nat} {lines out : List Text}
    (h : positionalLabels syms count lines = .ok (syms', out)) : out.length ≤ lines.length := by
  induction lines generalizing syms count out with
  | nil => cases h; rfl
  | cons line rest ih =>
    rw [positionalLabels] at h
    split at h
    · split at h
      · exact (ih h).trans (Nat.le_succ _)
      · cases h
    · split at h
      · cases h; exact Nat.succ_le_succ (ih ‹_›)
      · cases h
    · split at h
      · cases h; exact Nat.succ_le_succ (ih ‹_›)
      · cases h

theorem stage_length {β : Type} {f : Text → Except AsmError β} {lines : List Text} {out : List β}
    (h : stage f lines = .ok out) : out.length = lines.length := by
  induction lines generalizing out with
  | nil => cases h; rfl
  | cons line rest ih =>
    rw [stage] at h
    split at h
    · split at h
      · cases h
        rw [List.length_cons, List.length_cons, ih ‹_›]
      · cases h
    · cases h

/-- The five stages of a successful compile (R77). -/
theorem assemble_eq_ok {lines : List Text} {syms : Symbols} {words : List Word}
    (h : assemble lines = .ok (syms, words)) :
    ∃ explicit rest code resolved, explicitLabels [] (normalise lines) = .ok (explicit, rest) ∧
      positionalLabels explicit 0 rest = .ok (syms, code) ∧ stage (substitute syms) code = .ok resolved ∧
      stage assembleLine resolved = .ok words := by
  rw [assemble] at h
  split at h
  · cases h
  next explicit rest hexplicit =>
    split at h
    · cases h
    next syms' code hpositional =>
      split at h
      · cases h
      next resolved hresolved =>
        split at h
        · cases h
        next words' hwords =>
          cases h
          exact ⟨explicit, rest, code, resolved, hexplicit, hpositional, hresolved, hwords⟩

/-- No stage adds a line. -/
theorem assemble_length {lines : List Text} {syms : Symbols} {words : List Word}
    (h : assemble lines = .ok (syms, words)) : words.length ≤ lines.length := by
  obtain ⟨explicit, rest, code, resolved, hexplicit, hpositional, hresolved, hwords⟩ := assemble_eq_ok h
  calc words.length = code.length := by rw [stage_length hwords, stage_length hresolved]
    _ ≤ rest.length := positionalLabels_length hpositional
    _ ≤ (normalise lines).length := explicitLabels_length hexplicit
    _ ≤ lines.length := normalise_length lines

/-- Settles O60: the output lines are the text forms of the words, and `assemble_length` bounds their number. -/
theorem compileGivesWholeWordsOrNothing : Obligations.CompileGivesWholeWordsOrNothing := by
  intro lines
  cases h : assemble lines with
  | error e => exact .inl ⟨e, by rw [compile, h]⟩
  | ok r =>
    obtain ⟨syms, words⟩ := r
    refine .inr ⟨words.map fun w => textOf w, by rw [compile, h], by simpa using assemble_length h, fun l hl => ?_⟩
    obtain ⟨w, -, rfl⟩ := List.mem_map.mp hl
    exact ⟨w, (TextForm.wordOfText_eq_ok_iff _ w).mpr rfl⟩

end Sys2Proof.Proofs.Assembler
